-- ==== Sys2Proof/Word.lean ====
section
/-!
DEFINITION. The two bit-vector types everything else is written in: the 32-bit register word and the byte of
output memory (spec/00_scope.md R9, spec/20_memory.md R60), and the 16-word block (R13).
-/

namespace Sys2Proof

/-- A 32-bit register word (00_scope R9, 10_state R20). -/
abbrev Word := BitVec 32

/-- A byte of the output memory (20_memory R60). -/
abbrev Byte := BitVec 8

/-- A 512-bit block, or a transform state: 16 words, word 0 first (00_scope R13). -/
abbrev Block := Vector Word 16

end Sys2Proof
end

