-- ==== Sys2Proof/Config.lean ====
section
/-!
DEFINITION. What an implementation fixes, and the values the spec leaves free. A free value is an opaque constant with
no body: nothing can evaluate it, and what is proved of it holds for every value it could have.
-/

namespace Sys2Proof

/-- The parameter POS_ORDER: the order of the locale halves in the four position words (00_scope R9, 40_block_core
R104). -/
inductive PosOrder where
  /-- Pebble high, pebble low, stream high, stream low: this hardware's, by 92 D8. -/
  | hiLo
  /-- Pebble low, pebble high, stream low, stream high: the only alternative (92 P2). -/
  | loHi
  deriving DecidableEq, Repr

/-- `anyvalue` for a 32-bit register read (00_scope R12, 10_state R43): the free word numbered `n`. Log entry 7. -/
opaque Config.freeWord : Nat → Word

/-- `anyvalue` for a byte of output memory (00_scope R12, 20_memory R70, 42_sampling R172, 70 R222): the free byte
numbered `n`. Log entry 7. -/
opaque Config.freeByte : Nat → Byte

/-- What the output memory holds at an address at power-on: `anyvalue` per byte (20_memory R60). Log entry 6. -/
opaque Config.powerOnByte : Nat → Byte

end Sys2Proof
end

