-- ==== Sys2Proof/Machine/State.lean ====
section
/-!
DEFINITION. The state of the machine as plain data: every register of the map of spec/10_state.md R21, the output
memory, the two parameters, and the order in which the two agents move. With it, the reasons a step can stop and the
state after reset.
-/

namespace Sys2Proof.Machine

/-- The error kinds a command can complete with; `ErrorKind.code` (Flags.lean) gives each its number (60_exceptions
R191). Codes 8..15 are "never written", so there are exactly these eight. -/
inductive ErrorKind where
  /-- The command completed. -/
  | ok
  /-- Fewer than 8 kernel words loaded since reset. -/
  | invalidKernel
  /-- A round count that is not positive and even. -/
  | invalidRounds
  /-- An interval of fewer than 2 values. -/
  | invalidRange
  /-- An arbitrary-precision bound outside the 512-bit signed envelope. -/
  | invalidWidth
  /-- An advance past locale index 2^128 - 1. -/
  | localeOverflow
  /-- A command word that is not legal. -/
  | illegalCommand
  /-- A destination that does not fit in the output memory. -/
  | invalidBuffer
  deriving DecidableEq, Repr

/-- A locale, the coordinate of a block (41_locale R130), in the source's own order (00_scope R13). -/
structure Locale where
  pebble : BitVec 64
  stream : BitVec 64
  deriving DecidableEq, Repr

/-- One move of an agent (00_scope R8, 10_state R44). Which agent moves next is data: the list `State.moves`
(log entry 1). -/
inductive Move where
  /-- The host writes word `v` to the register at index `ri`. -/
  | writeReg (ri : BitVec 8) (v : Word)
  /-- The host reads the register at index `ri`. -/
  | readReg (ri : BitVec 8)
  /-- The host writes byte `b` to output memory address `a`. -/
  | writeMem (a : Nat) (b : Byte)
  /-- The host reads output memory address `a`. -/
  | readMem (a : Nat)
  /-- The host's WAIT: it reads STATUS until bit 0 is 0 (30_encoding R88). After a read that finds BUSY = 1, `turns` more
  such reads come before the core's move: this is an order of moves, as the list is (log entries 1 and 17). -/
  | wait (turns : Nat)
  /-- The reset input is asserted. -/
  | reset
  /-- The core completes the running command, if one runs (10_state R40). -/
  | core
  deriving DecidableEq, Repr

/-- What the host gets back from a read (10_state R44). -/
inductive Got where
  /-- A register read of index `ri` gave `v`. -/
  | reg (ri : BitVec 8) (v : Word)
  /-- A memory read of address `a` gave `b`. -/
  | mem (a : Nat) (b : Byte)
  deriving DecidableEq, Repr

/-- The output memory: the bytes written so far, by address, strictly rising. An address that is not listed still has
its power-on contents (20_memory R60). -/
abbrev Memory := List Host.Cell

/-- The state of the machine. -/
structure State where
  /-- CMD, the last accepted command word (10_state R23). -/
  cmd : Word
  /-- STATUS.BUSY (10_state R27). -/
  busy : Bool
  /-- ERR.CODE, the error kind of the last completed command (10_state R28). -/
  err : ErrorKind
  /-- ROUNDS, the round count's 32-bit pattern (10_state R25). -/
  rounds : Word
  /-- PEBBLE_LO, locale pebble bits 31:0 (10_state R24). -/
  pebbleLo : Word
  /-- PEBBLE_HI, locale pebble bits 63:32 (10_state R24). -/
  pebbleHi : Word
  /-- STREAM_LO, locale stream bits 31:0 (10_state R24). -/
  streamLo : Word
  /-- STREAM_HI, locale stream bits 63:32 (10_state R24). -/
  streamHi : Word
  /-- N_LO, advance operand bits 31:0 (10_state R29). -/
  nLo : Word
  /-- N_HI, advance operand bits 63:32 (10_state R29). -/
  nHi : Word
  /-- DST, the first destination byte of a fill (10_state R30). -/
  dst : Word
  /-- COUNT, the number of elements of a fill (10_state R30). -/
  count : Word
  /-- POS0..POS3, raw position words of BLOCKRAW (10_state R31). -/
  pos : Vector Word 4
  /-- KEY0..KEY7; a word that has not been written since reset holds no value, and KEYMASK says which words do
  (10_state R26, R27; log entry 5). -/
  key : Vector (Option Word) 8
  /-- BLK0..BLK15, the block of the last successful BLOCK or BLOCKRAW (10_state R32). -/
  blk : Block
  /-- S0..S15, the quarter-round test state (10_state R33). -/
  sreg : Block
  /-- MIN0..MIN16, the lower bound (10_state R34). -/
  minWords : Vector Word 17
  /-- MAX0..MAX16, the upper bound (10_state R34). -/
  maxWords : Vector Word 17
  /-- The output memory OUT (20_memory R60). -/
  mem : Memory
  /-- The parameter OUT_SIZE (00_scope R9); no move changes it (log entry 3). -/
  outSize : Nat
  /-- The parameter POS_ORDER (00_scope R9); no move changes it (log entry 4). -/
  posOrder : PosOrder
  /-- The destination bytes the host has written while the running fill was BUSY, strictly rising (20_memory R70;
  log entry 9). -/
  raced : List Nat
  /-- The number of the next free value (the model's own; log entry 7). -/
  fresh : Nat
  /-- What the host has got back from its reads, newest first (the host's, not the core's; log entry 12). -/
  got : List Got
  /-- The moves still to be made, first move first (the model's own; log entry 1). -/
  moves : List Move
  deriving DecidableEq, Repr

/-- Why the machine stops. -/
inductive Fault where
  /-- Raised by the host's memory port (HostPort.lean) when the host reads or writes output memory address `a` and
  `a >= OUT_SIZE`: "Host accesses outside [0, OUT_SIZE) are outside this spec" (20_memory R63, 93 U19). Safe: the
  model stops where the spec says nothing. No command raises it. -/
  | hostAddressAbsent (a : Nat)
  deriving DecidableEq, Repr

/-- Why an instruction has no meaning. -/
inductive Refusal where
  /-- Raised only by an arm of `exec` whose instruction has no meaning in the model yet. Safe: nothing can be proved of
  what it would do. No arm raises it: every command is modelled. -/
  | notModelled (mnemonic : String)
  deriving DecidableEq, Repr

/-- The outcome of a step of this machine. -/
abbrev Outcome := Host.Outcome State Fault Refusal

/-- The machine right after reset (10_state R21, 70_reset_and_hazards R220): idle, every register at its reset value,
no kernel word loaded, nothing written to the output memory. OUT_SIZE is the size of the spec's examples (log entry 3)
and POS_ORDER this hardware's (log entry 4); no host program is placed (log entry 2). -/
def State.reset : State where
  cmd := 0
  busy := false
  err := .ok
  rounds := 0
  pebbleLo := 0
  pebbleHi := 0
  streamLo := 0
  streamHi := 0
  nLo := 0
  nHi := 0
  dst := 0
  count := 0
  pos := #v[0, 0, 0, 0]
  key := #v[none, none, none, none, none, none, none, none]
  blk := Vector.replicate 16 0
  sreg := Vector.replicate 16 0
  minWords := Vector.replicate 17 0
  maxWords := Vector.replicate 17 0
  mem := []
  outSize := 65536
  posOrder := .hiLo
  raced := []
  fresh := 0
  got := []
  moves := []

end Sys2Proof.Machine
end

