-- ==== Sys2Proof/Machine/BlockCore.lean ====
section
/-!
DEFINITION. The block transform and the views of a block: pure functions of their arguments
(spec/40_block_core.md R100 to R113).
-/

namespace Sys2Proof.Machine

/-- `rotl32(x, n)`, a left rotation of a 32-bit word (00_scope R11). -/
def rotl32 (x : Word) (n : Nat) : Word := (x <<< n) ||| (x >>> (32 - n))

/-- The four constants, "expand 32-byte k" as little-endian words (40_block_core R100; log entry 14). -/
def constants : Vector Word 4 := #v[0x61707865, 0x3320646e, 0x79622d32, 0x6b206574]

/-- The initial state: constants at 0..3, kernel at 4..11, position at 12..15 (40_block_core R101, R102). -/
def initialState (k : Vector Word 8) (p : Vector Word 4) : Block := constants ++ k ++ p

/-- One step `x[i] <- x[i] +32 x[j]` of a quarter round (40_block_core R103). -/
def addStep (x : Block) (i j : Fin 16) : Block := x.set i (x[i] + x[j])

/-- One step `x[i] <- x[i] ^ x[j]` of a quarter round (40_block_core R103). -/
def xorStep (x : Block) (i j : Fin 16) : Block := x.set i (x[i] ^^^ x[j])

/-- One step `x[i] <- rotl32(x[i], n)` of a quarter round (40_block_core R103). -/
def rotStep (x : Block) (i : Fin 16) (n : Nat) : Block := x.set i (rotl32 x[i] n)

/-- The quarter round, its twelve steps in order, each reading what the steps before it wrote; the four indices may
be equal (40_block_core R103, R109). -/
def quarterRound (x : Block) (a b c d : Fin 16) : Block :=
  let x := addStep x a b
  let x := xorStep x d a
  let x := rotStep x d 16
  let x := addStep x c d
  let x := xorStep x b c
  let x := rotStep x b 12
  let x := addStep x a b
  let x := xorStep x d a
  let x := rotStep x d 8
  let x := addStep x c d
  let x := xorStep x b c
  rotStep x b 7

/-- The double-round: the four column groups, then the four diagonal groups (40_block_core R105; log entry 14). -/
def doubleRound (x : Block) : Block :=
  let x := quarterRound x 0 4 8 12
  let x := quarterRound x 1 5 9 13
  let x := quarterRound x 2 6 10 14
  let x := quarterRound x 3 7 11 15
  let x := quarterRound x 0 5 10 15
  let x := quarterRound x 1 6 11 12
  let x := quarterRound x 2 7 8 13
  quarterRound x 3 4 9 14

/-- `n` double-rounds in a row (40_block_core R106). -/
def doubleRounds : Nat → Block → Block
  | 0, x => x
  | n + 1, x => doubleRounds n (doubleRound x)

/-- The transform (40_block_core R106): `r / 2` double-rounds on a copy of the initial state, then the word-by-word sum
of the two. `r` counts single rounds (90 C1), and every command that calls it has checked it positive and even. -/
def transform (k : Vector Word 8) (p : Vector Word 4) (r : Nat) : Block :=
  let init := initialState k p
  let x := doubleRounds (r / 2) init
  Vector.ofFn fun i => init[i] + x[i]

/-- The high half of a 64-bit value. -/
def high32 (v : BitVec 64) : Word := v.extractLsb' 32 32

/-- The low half of a 64-bit value. -/
def low32 (v : BitVec 64) : Word := v.extractLsb' 0 32

/-- The 64-bit value `{h, l}`, `h` in the high bits (00_scope R10). -/
def join32 (h l : Word) : BitVec 64 := h ++ l

/-- The four position words of a locale under the parameter POS_ORDER (40_block_core R104). -/
def positionWords (order : PosOrder) (l : Locale) : Vector Word 4 :=
  match order with
  | .hiLo => #v[high32 l.pebble, low32 l.pebble, high32 l.stream, low32 l.stream]
  | .loHi => #v[low32 l.pebble, high32 l.pebble, low32 l.stream, high32 l.stream]

/-- The four bytes of a word, least significant first (40_block_core R110). -/
def wordBytes (w : Word) : List Byte :=
  [w.extractLsb' 0 8, w.extractLsb' 8 8, w.extractLsb' 16 8, w.extractLsb' 24 8]

/-- The byte view of a block: 64 bytes, each word little-endian, words in index order (40_block_core R110). -/
def byteView (w : Block) : List Byte := w.toList.flatMap wordBytes

/-- The 64-bit view of a block: word 2i is the low half of value i (40_block_core R111). -/
def u64View (w : Block) : Vector (BitVec 64) 8 :=
  Vector.ofFn fun i : Fin 8 => join32 w[2 * i.val + 1] w[2 * i.val]

/-- A list of words read as one unsigned number, word 0 least significant. -/
def wordsToNat : List Word → Nat
  | [] => 0
  | w :: ws => w.toNat + 2 ^ 32 * wordsToNat ws

/-- The big-integer view of a block (40_block_core R112). -/
def bigView (w : Block) : Nat := wordsToNat w.toList

/-- The inverse of the 64-bit view (40_block_core R113). -/
def unpair (q : Vector (BitVec 64) 8) : Block :=
  #v[low32 q[0], high32 q[0], low32 q[1], high32 q[1], low32 q[2], high32 q[2], low32 q[3], high32 q[3],
    low32 q[4], high32 q[4], low32 q[5], high32 q[5], low32 q[6], high32 q[6], low32 q[7], high32 q[7]]

/-- The inverse of the byte view: four bytes a word, least significant first (40_block_core R113). -/
def wordsOfBytes : List Byte → List Word
  | b0 :: b1 :: b2 :: b3 :: bs => (b3 ++ b2 ++ b1 ++ b0) :: wordsOfBytes bs
  | _ => []

end Sys2Proof.Machine
end

