-- ==== Sys2Proof/Machine/Ops.lean ====
section
/-!
DEFINITION. The named operations on the output memory and on the registers, and the completion of a command: the one
operation that reports an outcome (spec/60_exceptions.md R192) and the one that takes an error (R194). There is no
return from an error (R198).
-/

namespace Sys2Proof.Machine

/-- The canonical form of the output memory: addresses strictly rising. -/
abbrev Memory.wf (m : Memory) : Prop := m.Pairwise fun x y => x.1 < y.1

/-- The byte listed at an address, if one has been written there. -/
def Memory.find? : Memory → Nat → Option Byte
  | [], _ => none
  | (k, v) :: m, a => if k = a then some v else Memory.find? m a

/-- Write one byte, keeping the addresses strictly rising. -/
def Memory.write : Memory → Nat → Byte → Memory
  | [], a, b => [(a, b)]
  | (k, v) :: m, a, b =>
    if a < k then (a, b) :: (k, v) :: m
    else if a = k then (a, b) :: m
    else (k, v) :: Memory.write m a b

/-- Write a list of bytes at rising addresses. -/
def Memory.writeBytes : Memory → Nat → List Byte → Memory
  | m, _, [] => m
  | m, a, b :: bs => Memory.writeBytes (m.write a b) (a + 1) bs

/-- `u_N(v)`: the unsigned N-bit value with the same low N bits (00_scope R11). -/
def unsignedBits (n : Nat) (v : Int) : Nat := (v % 2 ^ n).toNat

/-- The `n` bytes of a number, least significant first. -/
def littleEndian : Nat → Nat → List Byte
  | 0, _ => []
  | n + 1, u => BitVec.ofNat 8 u :: littleEndian n (u / 256)

/-- `MemWrite(addr, n, v)`: the `n` bytes of `u_(8n)(v)`, least significant byte at the lowest address
(20_memory R62). -/
def Memory.writeInt (m : Memory) (a n : Nat) (v : Int) : Memory :=
  m.writeBytes a (littleEndian n (unsignedBits (8 * n) v))

/-- Integers `mn + m`, for `m` in the list, stored one after the other, `n` bytes each (42_sampling R164, R173). -/
def Memory.writeInts : Memory → Nat → Nat → Int → List Nat → Memory
  | mem, _, _, _, [] => mem
  | mem, a, n, mn, m :: ms => Memory.writeInts (mem.writeInt a n (mn + (m : Int))) (a + n) n mn ms

/-- Make `n` bytes from address `a` any value: the free bytes numbered from `fresh` (00_scope R12). -/
def Memory.setFree : Memory → Nat → Nat → Nat → Memory
  | m, _, 0, _ => m
  | m, a, n + 1, fresh => Memory.setFree (m.write a (Config.freeByte fresh)) (a + 1) n (fresh + 1)

/-- Make each listed address any value: the free bytes numbered from `fresh`. -/
def Memory.setFreeAt : Memory → List Nat → Nat → Memory
  | m, [], _ => m
  | m, a :: as, fresh => Memory.setFreeAt (m.write a (Config.freeByte fresh)) as (fresh + 1)

/-- What the output memory holds at an address: the byte written there, else its power-on contents, a free value
(20_memory R60; log entry 6). -/
def State.byte (s : State) (a : Nat) : Byte := (s.mem.find? a).getD (Config.powerOnByte a)

/-- `MemRead(addr, n)`: the unsigned value of `n` bytes, byte `addr` least significant (20_memory R63). -/
def State.memRead (s : State) : Nat → Nat → Nat
  | _, 0 => 0
  | a, n + 1 => (s.byte a).toNat + 256 * s.memRead (a + 1) n

/-- `complete(E)`: ERR.CODE gets the kind, and BUSY goes to 0, in one transition (60_exceptions R192). -/
def State.complete (s : State) (e : ErrorKind) : State := { s with err := e, busy := false }

/-- A command completes with all its results in `s` (60_exceptions R192). -/
def succeed (s : State) : Outcome := .next (s.complete .ok)

/-- `raise E`: a command completes with an error and commits nothing else (60_exceptions R194). The core takes no trap
(R190, R197), so this is all that taking an error does. -/
def raise (e : ErrorKind) (s : State) : Outcome := .next (s.complete e)

/-- LocaleOverflow inside a sampling fill of `size` destination bytes: the locale and every other register keep their
values, and every byte of the destination becomes any value (42_sampling R172; log entry 10). -/
def raiseInSampling (size : Nat) (s : State) : Outcome :=
  raise .localeOverflow
    { s with mem := s.mem.setFree s.dst.toNat size s.fresh, fresh := s.fresh + size }

/-- The destination bytes the host wrote while the fill ran are any value once it has completed (20_memory R70; log
entry 9). -/
def State.settleRaces (s : State) : State :=
  { s with mem := s.mem.setFreeAt s.raced s.fresh, fresh := s.fresh + s.raced.length, raced := [] }

/-- `settleRaces` on the state a command completes in. -/
def settle : Outcome → Outcome
  | .next s => .next s.settleRaces
  | .fault f => .fault f
  | .refused r => .refused r

/-- Add an address to a strictly rising list of addresses. -/
def insertAddress (a : Nat) : List Nat → List Nat
  | [] => [a]
  | b :: bs => if a < b then a :: b :: bs else if a = b then b :: bs else b :: insertAddress a bs

end Sys2Proof.Machine
end

