-- ==== Sys2Proof/Machine/Operands.lean ====
section
/-!
DEFINITION. The operand forms: the values commands read from registers (spec/10_state.md R24 to R34), and the locale
arithmetic (spec/41_locale.md R130 to R134).
-/

namespace Sys2Proof.Machine

/-- The greatest locale index, 2^128 - 1 (41_locale R130). -/
def lastIndex : Nat := 2 ^ 128 - 1

/-- `idx(L)` (41_locale R130). -/
def Locale.index (l : Locale) : Nat := 2 ^ 64 * l.stream.toNat + l.pebble.toNat

/-- `loc(i)` (41_locale R130). -/
def Locale.ofIndex (i : Nat) : Locale := ⟨BitVec.ofNat 64 i, BitVec.ofNat 64 (i >>> 64)⟩

/-- `Skip(L, n)`: the pebble wraps at 64 bits, and a wrap carries into the stream, checked; `none` is LocaleOverflow
(41_locale R132). -/
def Locale.skip (l : Locale) (n : BitVec 64) : Option Locale :=
  let p := l.pebble + n
  if p < l.pebble then
    if l.stream = BitVec.allOnes 64 then none else some ⟨p, l.stream + 1⟩
  else some ⟨p, l.stream⟩

/-- The blocks that `n` bytes consume, `ceil(n / 64)` (41_locale R134). -/
def blocksFor (n : Nat) : Nat := (n + 63) / 64

/-- `Mock(L, nBytes)`: the locale that generating `nBytes` more output would leave (41_locale R134). -/
def Locale.mock (l : Locale) (nBytes : BitVec 64) : Option Locale :=
  if nBytes = 0 then some l else l.skip (BitVec.ofNat 64 (blocksFor nBytes.toNat))

/-- The locale in PEBBLE and STREAM (10_state R24). -/
def State.locale (s : State) : Locale := ⟨join32 s.pebbleHi s.pebbleLo, join32 s.streamHi s.streamLo⟩

/-- Write all four locale registers at once (10_state R24, 41_locale R130). -/
def State.setLocale (s : State) (l : Locale) : State :=
  { s with
    pebbleLo := low32 l.pebble, pebbleHi := high32 l.pebble
    streamLo := low32 l.stream, streamHi := high32 l.stream }

/-- The operand N (10_state R29). -/
def State.n (s : State) : BitVec 64 := join32 s.nHi s.nLo

/-- The round count, ROUNDS read as a signed 32-bit integer (10_state R25). -/
def State.roundCount (s : State) : Int := s.rounds.toInt

/-- The kernel, if all eight words have been loaded since reset (10_state R26; log entry 5). -/
def State.kernel? (s : State) : Option (Vector Word 8) :=
  match s.key[0], s.key[1], s.key[2], s.key[3], s.key[4], s.key[5], s.key[6], s.key[7] with
  | some k0, some k1, some k2, some k3, some k4, some k5, some k6, some k7 => some #v[k0, k1, k2, k3, k4, k5, k6, k7]
  | _, _, _, _, _, _, _, _ => none

/-- A bound of FILLI of width `w`: the low `w` bits of words 1 and 0, read as signed (10_state R34). -/
def narrowBound (w : Nat) (v : Vector Word 17) : Int := ((join32 v[1] v[0]).setWidth w).toInt

/-- A bound of FILLBIG: all 17 words as one 544-bit two's complement integer (10_state R34). -/
def wideBound (v : Vector Word 17) : Int := (BitVec.ofNat 544 (wordsToNat v.toList)).toInt

/-- The block at a locale index, for a kernel and a round count (40_block_core R104, R106; 42_sampling R154). -/
def State.blockAt (s : State) (k : Vector Word 8) (r : Nat) (i : Nat) : Block :=
  transform k (positionWords s.posOrder (Locale.ofIndex i)) r

/-- Whether a destination of COUNT elements of `esize` bytes at DST fits in the output memory, in exact integers
(42_sampling R151). -/
def State.dstFits (s : State) (esize : Nat) : Bool := decide (s.dst.toNat + s.count.toNat * esize ≤ s.outSize)

end Sys2Proof.Machine
end

