-- ==== Sys2Proof/Machine/Flags.lean ====
section
/-!
DEFINITION. The status of the core: the number of each error kind (spec/60_exceptions.md R191), the words STATUS and ERR
read as (spec/10_state.md R27, R28), and the checks commands share (spec/42_sampling.md R150).
-/

namespace Sys2Proof.Machine

/-- The code of an error kind (60_exceptions R191). -/
def ErrorKind.code : ErrorKind → BitVec 4
  | .ok => 0
  | .invalidKernel => 1
  | .invalidRounds => 2
  | .invalidRange => 3
  | .invalidWidth => 4
  | .localeOverflow => 5
  | .illegalCommand => 6
  | .invalidBuffer => 7

/-- STATUS.KEYMASK: bit i is 1 when KEYi has been written since reset (10_state R27). -/
def State.keyMask (s : State) : BitVec 8 :=
  BitVec.ofBool s.key[7].isSome ++ BitVec.ofBool s.key[6].isSome ++ BitVec.ofBool s.key[5].isSome ++
    BitVec.ofBool s.key[4].isSome ++ BitVec.ofBool s.key[3].isSome ++ BitVec.ofBool s.key[2].isSome ++
    BitVec.ofBool s.key[1].isSome ++ BitVec.ofBool s.key[0].isSome

/-- The word STATUS reads as: BUSY in bit 0, KEYMASK in bits 15:8, the other bits 0 (10_state R27). -/
def State.statusWord (s : State) : Word := 0#16 ++ s.keyMask ++ 0#7 ++ BitVec.ofBool s.busy

/-- The word ERR reads as: CODE in bits 3:0, the other bits 0 (10_state R28). -/
def State.errWord (s : State) : Word := 0#28 ++ s.err.code

/-- Whether a round count is positive and even (10_state R25). -/
def roundsValid (r : Int) : Bool := decide (0 < r ∧ r % 2 = 0)

/-- `validate_kr`, the checks every command that runs the transform makes first: the kernel, then the rounds
(42_sampling R150, 60_exceptions R193). The rest of the command gets the kernel and the round count. -/
def validated (s : State) (rest : Vector Word 8 → Nat → Outcome) : Outcome :=
  match s.kernel? with
  | none => raise .invalidKernel s
  | some k => if roundsValid s.roundCount then rest k s.roundCount.toNat else raise .invalidRounds s

end Sys2Proof.Machine
end

