-- ==== Sys2Proof/Machine/Block.lean ====
section
/-!
DEFINITION. The block transform family: BLOCK, BLOCKRAW and QROUND (spec/40_block_core.md R107 to R109).
-/

namespace Sys2Proof.Machine

/-- BLOCK (40_block_core R107): the block at the locale goes to BLK, and the locale moves on by one; at the last locale
the step fails and the block is not produced. -/
def execBlock (s : State) : Outcome :=
  validated s fun k r =>
    match s.locale.skip 1 with
    | none => raise .localeOverflow s
    | some l => succeed (State.setLocale { s with blk := s.blockAt k r s.locale.index } l)

/-- BLOCKRAW (40_block_core R108): the transform of the raw position words goes to BLK; the locale is neither read nor
written. -/
def execBlockraw (s : State) : Outcome :=
  validated s fun k r => succeed { s with blk := transform k s.pos r }

/-- A 4-bit index field as an index into S0..S15, as it stands (30_encoding R82). -/
def lane (q : BitVec 4) : Fin 16 := q.toFin

/-- QROUND (40_block_core R109): one quarter round on S0..S15; it checks nothing and never fails. -/
def execQround (a b c d : BitVec 4) (s : State) : Outcome :=
  succeed { s with sreg := quarterRound s.sreg (lane a) (lane b) (lane c) (lane d) }

end Sys2Proof.Machine
end

