-- ==== Sys2Proof/Machine/Locale.lean ====
section
/-!
DEFINITION. The locale family: SKIP and MOCK (spec/41_locale.md R138, R139). Neither reads the kernel or the rounds.
-/

namespace Sys2Proof.Machine

/-- Write the locale an advance gives, or report LocaleOverflow and leave LOC alone (41_locale R137). -/
def advanceTo (l : Option Locale) (s : State) : Outcome :=
  match l with
  | none => raise .localeOverflow s
  | some l => succeed (s.setLocale l)

/-- SKIP (41_locale R138): advance the locale by N pebbles. -/
def execSkip (s : State) : Outcome := advanceTo (s.locale.skip s.n) s

/-- MOCK (41_locale R139): advance the locale by the blocks that N more bytes would consume. -/
def execMock (s : State) : Outcome := advanceTo (s.locale.mock s.n) s

end Sys2Proof.Machine
end

