-- ==== Sys2Proof/Machine/Sampling.lean ====
section
/-!
DEFINITION. The sampling family: FILLB, FILLI.8, FILLI.16, FILLI.32, FILLI.64 and FILLBIG (spec/42_sampling.md R150 to
R177).
-/

namespace Sys2Proof.Machine

/-- `bitlen(r)` (00_scope R11). -/
def bitlen (r : Nat) : Nat := if r = 0 then 0 else r.log2 + 1

/-- `smear(range)`: the least all-ones value that is at least `range` (42_sampling R152). -/
def smear (range : Nat) : Nat := 2 ^ bitlen range - 1

/-- Store `n` bytes from address `a`, taken from the byte views of `b` successive blocks, the first at index `i`; the
last block may be partly used (42_sampling R155). -/
def fillBlocks (block : Nat → Block) : Nat → Nat → Nat → Nat → Memory → Memory
  | 0, _, _, _, m => m
  | b + 1, i, n, a, m => fillBlocks block b (i + 1) (n - 64) (a + 64) (m.writeBytes a ((byteView (block i)).take n))

/-- FILLB (42_sampling R155 to R158): COUNT bytes of output memory; the overflow check precedes every write (R157). -/
def execFillb (s : State) : Outcome :=
  validated s fun k r =>
    let n := s.count.toNat
    let i := s.locale.index
    let b := blocksFor n
    if !s.dstFits 1 then raise .invalidBuffer s
    else if i + b > lastIndex then raise .localeOverflow s
    else
      succeed (State.setLocale { s with mem := fillBlocks (s.blockAt k r) b i n s.dst.toNat s.mem }
        (Locale.ofIndex (i + b)))

/-- Go through the draws of one block in order until `need` of them are accepted or none is left: the accepted values,
and how many are still needed. A draw is accepted when its masked value is at most `range`; it is never reduced, and
each attempt takes one whole draw (42_sampling R161 to R163). -/
def acceptDraws (mask range : Nat) : List (BitVec 64) → Nat → List Nat × Nat
  | _, 0 => ([], 0)
  | [], need + 1 => ([], need + 1)
  | d :: q, need + 1 =>
    let m := d.toNat &&& mask
    if m ≤ range then
      let rest := acceptDraws mask range q need
      (m :: rest.1, rest.2)
    else acceptDraws mask range q (need + 1)

/-- The sampling loop of FILLI: `need` accepted values from the draws of the blocks at index `i`, `i + 1` and so on, and
the index after the last block generated. A block is generated only when a value is still needed, and the draws left
over in the last one are dropped (42_sampling R160, R161). `left` is the number of blocks that can still be generated
before `next_block` fails, 2^128 - 1 - i (R154, R176); `none` is its LocaleOverflow (log entry 15). -/
def sampleDraws (block : Nat → Block) (mask range : Nat) : Nat → Nat → Nat → Option (List Nat × Nat)
  | _, i, 0 => some ([], i)
  | 0, _, _ + 1 => none
  | left + 1, i, need + 1 =>
    let (ms, need') := acceptDraws mask range (u64View (block i)).toList (need + 1)
    match sampleDraws block mask range left (i + 1) need' with
    | none => none
    | some (ms', i') => some (ms ++ ms', i')

/-- The sampling loop of FILLBIG: as FILLI's, but each attempt takes one whole block as a big unsigned integer, and
advances the locale index by one whether it is accepted or not (42_sampling R171, R174). -/
def sampleBlocks (block : Nat → Block) (mask range : Nat) : Nat → Nat → Nat → Option (List Nat × Nat)
  | _, i, 0 => some ([], i)
  | 0, _, _ + 1 => none
  | left + 1, i, need + 1 =>
    let m := bigView (block i) &&& mask
    if m ≤ range then
      match sampleBlocks block mask range left (i + 1) need with
      | none => none
      | some (ms, i') => some (m :: ms, i')
    else sampleBlocks block mask range left (i + 1) (need + 1)

/-- The end of a sampling fill: store the accepted values as `esize`-byte elements and write the locale, or, where the
locale ran out, complete with LocaleOverflow and a destination of any value (42_sampling R164, R172, R173). -/
def storeSamples (s : State) (esize : Nat) (mn : Int) : Option (List Nat × Nat) → Outcome
  | none => raiseInSampling (s.count.toNat * esize) s
  | some (ms, i) =>
    succeed (State.setLocale { s with mem := s.mem.writeInts s.dst.toNat esize mn ms } (Locale.ofIndex i))

/-- FILLI.W (42_sampling R161): COUNT signed W-bit integers in [minVal, maxVal), by rejection sampling of 64-bit
draws. -/
def fillInts (w : Nat) (s : State) : Outcome :=
  validated s fun k r =>
    let mn := narrowBound w s.minWords
    let mx := narrowBound w s.maxWords
    if mx - mn < 2 then raise .invalidRange s
    else if !s.dstFits (w / 8) then raise .invalidBuffer s
    else
      let range := (mx - mn - 1).toNat
      let i := s.locale.index
      storeSamples s (w / 8) mn
        (sampleDraws (s.blockAt k r) (smear range) range (lastIndex - i) i s.count.toNat)

/-- FILLI.8 (42_sampling R161). -/
def execFilli8 (s : State) : Outcome := fillInts 8 s

/-- FILLI.16 (42_sampling R161). -/
def execFilli16 (s : State) : Outcome := fillInts 16 s

/-- FILLI.32 (42_sampling R161). -/
def execFilli32 (s : State) : Outcome := fillInts 32 s

/-- FILLI.64 (42_sampling R161). -/
def execFilli64 (s : State) : Outcome := fillInts 64 s

/-- Whether an arbitrary-precision bound lies in [-2^511, 2^511 - 1] (42_sampling R170). -/
def inEnvelope (v : Int) : Bool := decide (-2 ^ 511 ≤ v ∧ v ≤ 2 ^ 511 - 1)

/-- FILLBIG (42_sampling R170, R171): COUNT signed integers in [minVal, maxVal), each by rejection sampling of whole
512-bit blocks, stored as 64-byte elements. -/
def execFillbig (s : State) : Outcome :=
  validated s fun k r =>
    let mn := wideBound s.minWords
    let mx := wideBound s.maxWords
    if mx - mn < 2 then raise .invalidRange s
    else if !(inEnvelope mn && inEnvelope mx) then raise .invalidWidth s
    else if !s.dstFits 64 then raise .invalidBuffer s
    else
      let range := (mx - mn - 1).toNat
      let i := s.locale.index
      storeSamples s 64 mn
        (sampleBlocks (s.blockAt k r) (smear range) range (lastIndex - i) i s.count.toNat)

end Sys2Proof.Machine
end

