-- ==== Sys2Proof/Syntax.lean ====
section
/-!
DEFINITION. The commands of the core: one constructor for each row of spec/opcode_table.json
(spec/30_encoding.md R83).
-/

namespace Sys2Proof

/-- A command. Only QROUND carries operands in its word, four unsigned 4-bit indices into S0..S15, taken as
they stand (30_encoding R81, R82); every other operand comes from a register (R80). -/
inductive Instr where
  /-- BLOCK: the block at the locale, and the locale moves on by one (40_block_core R107). -/
  | block
  /-- BLOCKRAW: the block of the raw position words POS0..POS3 (40_block_core R108). -/
  | blockraw
  /-- SKIP: advance the locale by N pebbles (41_locale R138). -/
  | skip
  /-- MOCK: advance the locale by the blocks N bytes would consume (41_locale R139). -/
  | mock
  /-- FILLB: fill COUNT bytes (42_sampling R155). -/
  | fillb
  /-- FILLI.8: fill COUNT signed 8-bit integers (42_sampling R161). -/
  | filli8
  /-- FILLI.16: fill COUNT signed 16-bit integers (42_sampling R161). -/
  | filli16
  /-- FILLI.32: fill COUNT signed 32-bit integers (42_sampling R161). -/
  | filli32
  /-- FILLI.64: fill COUNT signed 64-bit integers (42_sampling R161). -/
  | filli64
  /-- FILLBIG: fill COUNT signed integers of up to 512 bits (42_sampling R171). -/
  | fillbig
  /-- QROUND a, b, c, d: one quarter round on S0..S15 (40_block_core R109). -/
  | qround (a b c d : BitVec 4)
  deriving DecidableEq, Repr

end Sys2Proof
end

