-- ==== Sys2Proof/Machine/Dispatch.lean ====
section
/-!
DEFINITION. The meaning of every command: one arm per constructor of Instr, each a call of its meaning.
-/

namespace Sys2Proof.Machine

-- The completion transition of a legal command (10_state R40).
def exec (i : Instr) (s : State) : Host.Outcome State Fault Refusal :=
  match i with
  | .block => Sys2Proof.Machine.execBlock s
  | .blockraw => Sys2Proof.Machine.execBlockraw s
  | .skip => Sys2Proof.Machine.execSkip s
  | .mock => Sys2Proof.Machine.execMock s
  | .fillb => Sys2Proof.Machine.execFillb s
  | .filli8 => Sys2Proof.Machine.execFilli8 s
  | .filli16 => Sys2Proof.Machine.execFilli16 s
  | .filli32 => Sys2Proof.Machine.execFilli32 s
  | .filli64 => Sys2Proof.Machine.execFilli64 s
  | .fillbig => Sys2Proof.Machine.execFillbig s
  | .qround a b c d => Sys2Proof.Machine.execQround a b c d s

end Sys2Proof.Machine
end

