-- ==== Sys2Proof/WellFormed.lean ====
section
/-!
DEFINITION. What is well formed: the spec's own legality check on a command word (spec/30_encoding.md R84), and the
check on an instruction as syntax.
-/

namespace Sys2Proof

/-- The legality of a command word, line for line as 30_encoding R84 writes it. Each of the three ways to be illegal
of R85 is one of its checks: an operation code with no command, a non-zero reserved field, a non-zero unused field. -/
def legal (c : Word) : Bool :=
  let op := c.extractLsb' 0 4
  if op ∈ [0x1#4, 0x2#4, 0x3#4, 0x4#4, 0x5#4, 0x7#4] then c == op.setWidth 32
  else if op == 0x6#4 then (c &&& 0xFFFFFCF0#32) == 0#32
  else if op == 0x8#4 then (c &&& 0x0000FFF0#32) == 0#32
  else false

/-- An instruction is well formed when every operand lies in its encoding field. QROUND's four indices may be any of
the 16 values and need not differ (30_encoding R82), and no other command has an operand field, so the types of
`Instr` already hold every check: an ill-formed operand can't be written, and what can be ill formed is a word. -/
def Instr.wellFormed : Instr → Bool
  | .block => true
  | .blockraw => true
  | .skip => true
  | .mock => true
  | .fillb => true
  | .filli8 => true
  | .filli16 => true
  | .filli32 => true
  | .filli64 => true
  | .fillbig => true
  | .qround a b c d => decide (a.toNat < 16 ∧ b.toNat < 16 ∧ c.toNat < 16 ∧ d.toNat < 16)

end Sys2Proof
end

