-- ==== Sys2Proof/Decode.lean ====
section
/-!
DEFINITION. The decoder of command words, total on all 2^32 words and rejecting by name, and after it the encoder,
both from spec/30_encoding.md R81 to R86.
-/

namespace Sys2Proof

/-- Why a word is no command (30_encoding R85). -/
inductive IllegalWord where
  /-- Its operation code, bits 3:0, is 0x0 or one of 0x9..0xF. -/
  | noSuchOperation (op : BitVec 4)
  /-- Its operation code is a command's, and a reserved field, or a field that command does not use, is not 0. -/
  | fieldNotZero (op : BitVec 4)
  deriving DecidableEq, Repr

/-- One row of the encoding table of 30_encoding R83: a word `c` is the row's when `c &&& mask = pattern`, and `build`
reads the row's operand fields from it. -/
structure Row where
  pattern : Word
  mask : Word
  build : Word → Instr

/-- Field OP of a command word, bits 3:0 (30_encoding R81). -/
def fieldOp (c : Word) : BitVec 4 := c.extractLsb' 0 4

/-- Field QA, bits 19:16 (30_encoding R81). -/
def fieldQA (c : Word) : BitVec 4 := c.extractLsb' 16 4

/-- Field QB, bits 23:20 (30_encoding R81). -/
def fieldQB (c : Word) : BitVec 4 := c.extractLsb' 20 4

/-- Field QC, bits 27:24 (30_encoding R81). -/
def fieldQC (c : Word) : BitVec 4 := c.extractLsb' 24 4

/-- Field QD, bits 31:28 (30_encoding R81). -/
def fieldQD (c : Word) : BitVec 4 := c.extractLsb' 28 4

/-- The rows of 30_encoding R83, in the table's order. -/
def rows : List Row := [
  ⟨0x00000001#32, 0xFFFFFFFF#32, fun _ => .block⟩,
  ⟨0x00000002#32, 0xFFFFFFFF#32, fun _ => .blockraw⟩,
  ⟨0x00000003#32, 0xFFFFFFFF#32, fun _ => .skip⟩,
  ⟨0x00000004#32, 0xFFFFFFFF#32, fun _ => .mock⟩,
  ⟨0x00000005#32, 0xFFFFFFFF#32, fun _ => .fillb⟩,
  ⟨0x00000006#32, 0xFFFFFFFF#32, fun _ => .filli8⟩,
  ⟨0x00000106#32, 0xFFFFFFFF#32, fun _ => .filli16⟩,
  ⟨0x00000206#32, 0xFFFFFFFF#32, fun _ => .filli32⟩,
  ⟨0x00000306#32, 0xFFFFFFFF#32, fun _ => .filli64⟩,
  ⟨0x00000007#32, 0xFFFFFFFF#32, fun _ => .fillbig⟩,
  ⟨0x00000008#32, 0x0000FFFF#32, fun c => .qround (fieldQA c) (fieldQB c) (fieldQC c) (fieldQD c)⟩]

/-- Whether a word is a row's (30_encoding R84). -/
def Row.holds (r : Row) (c : Word) : Bool := (c &&& r.mask) == r.pattern

/-- The name under which a word that no row matches is rejected (30_encoding R85). -/
def illegalWord (c : Word) : IllegalWord :=
  let op := fieldOp c
  if 0x1#4 ≤ op ∧ op ≤ 0x8#4 then .fieldNotZero op else .noSuchOperation op

/-- Decode a command word: the row it matches (30_encoding R84), or its rejection by name (R85). -/
def decode (c : Word) : Except IllegalWord Instr :=
  match rows.find? (fun r => r.holds c) with
  | some r => .ok (r.build c)
  | none => .error (illegalWord c)

/-- The command word of an instruction (30_encoding R81, R83). -/
def encode : Instr → Word
  | .block => 0x00000001#32
  | .blockraw => 0x00000002#32
  | .skip => 0x00000003#32
  | .mock => 0x00000004#32
  | .fillb => 0x00000005#32
  | .filli8 => 0x00000006#32
  | .filli16 => 0x00000106#32
  | .filli32 => 0x00000206#32
  | .filli64 => 0x00000306#32
  | .fillbig => 0x00000007#32
  | .qround a b c d => d ++ c ++ b ++ a ++ 0x0008#16

/-- The instruction the decoder reads from a word of `nbits` bits, numbered as spec/opcode_table.json numbers them.
Every command is one 32-bit word (30_encoding R80): a shorter count leaves the bits above it 0, and a number that does
not fit in `nbits` bits, or in 32, is no command word. -/
def decodeTableWord (nbits w : Nat) : Option Instr :=
  if nbits ≤ 32 ∧ w < 2 ^ nbits then
    match decode (BitVec.ofNat 32 w) with
    | .ok i => some i
    | .error _ => none
  else none

end Sys2Proof
end

