-- ==== Sys2Proof/Machine/HostPort.lean ====
section
/-!
DEFINITION. What the host can do to the core: the register port (spec/10_state.md R20 to R34, R42, R43), the memory port
(spec/20_memory.md R63, R70) and the reset input (spec/70_reset_and_hazards.md R220, R222).
-/

namespace Sys2Proof.Machine

/-- The registers of the map (10_state R21). -/
inductive Reg where
  | cmd | status | err | rounds
  | pebbleLo | pebbleHi | streamLo | streamHi
  | nLo | nHi | dst | count
  | pos (i : Fin 4)
  | key (i : Fin 8)
  | blk (i : Fin 16)
  | sreg (i : Fin 16)
  | min (i : Fin 17)
  | max (i : Fin 17)
  deriving DecidableEq, Repr

/-- The word index of a register (10_state R21). -/
def Reg.index : Reg → BitVec 8
  | .cmd => 0x00
  | .status => 0x01
  | .err => 0x02
  | .rounds => 0x03
  | .pebbleLo => 0x04
  | .pebbleHi => 0x05
  | .streamLo => 0x06
  | .streamHi => 0x07
  | .nLo => 0x08
  | .nHi => 0x09
  | .dst => 0x0A
  | .count => 0x0B
  | .pos i => 0x0C#8 + BitVec.ofNat 8 i.val
  | .key i => 0x10#8 + BitVec.ofNat 8 i.val
  | .blk i => 0x20#8 + BitVec.ofNat 8 i.val
  | .sreg i => 0x30#8 + BitVec.ofNat 8 i.val
  | .min i => 0x40#8 + BitVec.ofNat 8 i.val
  | .max i => 0x60#8 + BitVec.ofNat 8 i.val

/-- The register at a word index; an index that is not in the map is unmapped (10_state R21). -/
def Reg.atIndex (ri : BitVec 8) : Option Reg :=
  let n := ri.toNat
  if n = 0x00 then some .cmd
  else if n = 0x01 then some .status
  else if n = 0x02 then some .err
  else if n = 0x03 then some .rounds
  else if n = 0x04 then some .pebbleLo
  else if n = 0x05 then some .pebbleHi
  else if n = 0x06 then some .streamLo
  else if n = 0x07 then some .streamHi
  else if n = 0x08 then some .nLo
  else if n = 0x09 then some .nHi
  else if n = 0x0A then some .dst
  else if n = 0x0B then some .count
  else if h : 0x0C ≤ n ∧ n - 0x0C < 4 then some (.pos ⟨n - 0x0C, h.2⟩)
  else if h : 0x10 ≤ n ∧ n - 0x10 < 8 then some (.key ⟨n - 0x10, h.2⟩)
  else if h : 0x20 ≤ n ∧ n - 0x20 < 16 then some (.blk ⟨n - 0x20, h.2⟩)
  else if h : 0x30 ≤ n ∧ n - 0x30 < 16 then some (.sreg ⟨n - 0x30, h.2⟩)
  else if h : 0x40 ≤ n ∧ n - 0x40 < 17 then some (.min ⟨n - 0x40, h.2⟩)
  else if h : 0x60 ≤ n ∧ n - 0x60 < 17 then some (.max ⟨n - 0x60, h.2⟩)
  else none

/-- The word stored in a register, as a read gives it; KEY0..KEY7 are write-only and read 0 (10_state R21, R26). -/
def State.readStored (s : State) : Reg → Word
  | .cmd => s.cmd
  | .status => s.statusWord
  | .err => s.errWord
  | .rounds => s.rounds
  | .pebbleLo => s.pebbleLo
  | .pebbleHi => s.pebbleHi
  | .streamLo => s.streamLo
  | .streamHi => s.streamHi
  | .nLo => s.nLo
  | .nHi => s.nHi
  | .dst => s.dst
  | .count => s.count
  | .pos i => s.pos[i]
  | .key _ => 0
  | .blk i => s.blk[i]
  | .sreg i => s.sreg[i]
  | .min i => s.minWords[i]
  | .max i => s.maxWords[i]

/-- A host write to a register while the core is idle (10_state R22 to R34): a CMD write is accepted and starts the
command (R23), a KEY write loads its word (R26), and STATUS, ERR and BLK ignore writes (R22). -/
def State.writeIdle (s : State) (v : Word) : Reg → State
  | .cmd => { s with cmd := v, busy := true }
  | .status => s
  | .err => s
  | .rounds => { s with rounds := v }
  | .pebbleLo => { s with pebbleLo := v }
  | .pebbleHi => { s with pebbleHi := v }
  | .streamLo => { s with streamLo := v }
  | .streamHi => { s with streamHi := v }
  | .nLo => { s with nLo := v }
  | .nHi => { s with nHi := v }
  | .dst => { s with dst := v }
  | .count => { s with count := v }
  | .pos i => { s with pos := s.pos.set i v }
  | .key i => { s with key := s.key.set i (some v) }
  | .blk _ => s
  | .sreg i => { s with sreg := s.sreg.set i v }
  | .min i => { s with minWords := s.minWords.set i v }
  | .max i => { s with maxWords := s.maxWords.set i v }

/-- Whether a register is one of the four locale registers. -/
def Reg.isLocale : Reg → Bool
  | .pebbleLo | .pebbleHi | .streamLo | .streamHi => true
  | _ => false

/-- Whether a register is one of BLK0..BLK15. -/
def Reg.isBlk : Reg → Bool
  | .blk _ => true
  | _ => false

/-- Whether a register is one of S0..S15. -/
def Reg.isSreg : Reg → Bool
  | .sreg _ => true
  | _ => false

/-- Whether a command may write a register besides ERR: the W entries of 10_state R35. -/
def mayWrite (i : Instr) (r : Reg) : Bool :=
  match i with
  | .block => r.isLocale || r.isBlk
  | .blockraw => r.isBlk
  | .skip => r.isLocale
  | .mock => r.isLocale
  | .fillb => r.isLocale
  | .filli8 => r.isLocale
  | .filli16 => r.isLocale
  | .filli32 => r.isLocale
  | .filli64 => r.isLocale
  | .fillbig => r.isLocale
  | .qround _ _ _ _ => r.isSreg

/-- The bytes of one element of a fill's destination; 0 for a command that fills nothing (20_memory R66). -/
def elementSize : Instr → Nat
  | .block => 0
  | .blockraw => 0
  | .skip => 0
  | .mock => 0
  | .fillb => 1
  | .filli8 => 1
  | .filli16 => 2
  | .filli32 => 4
  | .filli64 => 8
  | .fillbig => 64
  | .qround _ _ _ _ => 0

/-- The command that is running: the one in CMD while BUSY, if its word is legal (10_state R23, R40). -/
def State.running (s : State) : Option Instr :=
  if s.busy then
    match decode s.cmd with
    | .ok i => some i
    | .error _ => none
  else none

/-- The size in bytes of the running fill's destination; 0 where no fill runs (20_memory R66). -/
def State.runningSize (s : State) : Nat :=
  match s.running with
  | some i => s.count.toNat * elementSize i
  | none => 0

/-- Whether an address is in the destination of the running fill (20_memory R66). -/
def State.inDest (s : State) (a : Nat) : Bool :=
  decide (s.dst.toNat ≤ a ∧ a < s.dst.toNat + s.runningSize)

/-- Whether a read of a register now gives any value: the running command may write it (10_state R43). -/
def State.unstable (s : State) (r : Reg) : Bool :=
  match s.running with
  | some i => mayWrite i r
  | none => false

/-- A host register write: dropped while BUSY (10_state R42), ignored at an unmapped index (R22). -/
def hostWriteReg (ri : BitVec 8) (v : Word) (s : State) : State :=
  if s.busy then s
  else
    match Reg.atIndex ri with
    | none => s
    | some r => s.writeIdle v r

/-- A host register read: 0 at an unmapped index (10_state R22), a free value of a register the running command may
write, the stored value otherwise (R43). It changes no register (R67): the host gets the word back, and a free value is
used up. -/
def hostReadReg (ri : BitVec 8) (s : State) : State :=
  match Reg.atIndex ri with
  | none => { s with got := .reg ri 0 :: s.got }
  | some r =>
    if s.unstable r then { s with got := .reg ri (Config.freeWord s.fresh) :: s.got, fresh := s.fresh + 1 }
    else { s with got := .reg ri (s.readStored r) :: s.got }

/-- `WAIT`, the loop that reads STATUS until bit 0 is 0 (30_encoding R88), in the order of moves in which `n` of its
reads find BUSY = 1 where a command runs: the core completes the command before the first read, or after `n` of them.
On an idle core it is one read whatever `n` is (log entry 17). -/
def wait : Nat → List Move
  | 0 => [.core, .wait 0]
  | n + 1 => [.wait n]

/-- One turn of the host's WAIT (30_encoding R88): read STATUS; where its bit 0 is 0 the loop ends, and where it is 1
the loop goes on, as the WAIT in which `turns` more reads find BUSY = 1 (log entry 17). -/
def hostWait (turns : Nat) (s : State) : State :=
  let t := hostReadReg Reg.status.index s
  if s.statusWord.getLsbD 0 then { t with moves := wait turns ++ s.moves } else t

/-- A host write of one byte of output memory: plain memory outside the running fill's destination, a race inside it
(20_memory R63, R70). -/
def hostWriteMem (a : Nat) (b : Byte) (s : State) : Outcome :=
  if s.outSize ≤ a then .fault (.hostAddressAbsent a)
  else if s.inDest a then .next { s with raced := insertAddress a s.raced }
  else .next { s with mem := s.mem.write a b }

/-- A host read of one byte of output memory: the byte outside the running fill's destination, any value inside it
(20_memory R63, R70). -/
def hostReadMem (a : Nat) (s : State) : Outcome :=
  if s.outSize ≤ a then .fault (.hostAddressAbsent a)
  else if s.inDest a then
    .next { s with got := .mem a (Config.freeByte s.fresh) :: s.got, fresh := s.fresh + 1 }
  else .next { s with got := .mem a (s.byte a) :: s.got }

/-- The number of bytes of the running fill's destination that lie in the output memory. -/
def State.presentSize (s : State) : Nat := Nat.min (s.dst.toNat + s.runningSize) s.outSize - s.dst.toNat

/-- The reset input (70_reset_and_hazards R220, R222): every register takes its reset value, the output memory keeps its
bytes, and an aborted fill's destination becomes any value. The parameters stay, and so does what is not the core's:
the moves to come, what the host has got back, and the count of free values used (log entry 11). -/
def resetCore (s : State) : State :=
  { State.reset with
    mem := s.mem.setFree s.dst.toNat s.presentSize s.fresh
    fresh := s.fresh + s.presentSize
    outSize := s.outSize
    posOrder := s.posOrder
    got := s.got
    moves := s.moves }

end Sys2Proof.Machine
end

