-- ==== Sys2Proof/Machine/Fetch.lean ====
section
/-!
DEFINITION. What each move does. The core's move fetches the word in CMD, decodes it and completes the command in one
transition (spec/10_state.md R40); the other moves are the host's and the reset input's (R44).
-/

namespace Sys2Proof.Machine

/-- The core's move (10_state R40): if a command runs, complete it, a legal one by its meaning, an illegal one with
IllegalCommand and nothing else (30_encoding R85); then settle the host's races with it (20_memory R70). An idle core
waits (70_reset_and_hazards R221). -/
def coreMove (s : State) : Outcome :=
  if s.busy then
    match decode s.cmd with
    | .ok i => settle (exec i s)
    | .error _ => settle (raise .illegalCommand s)
  else .next s

/-- One move. -/
def makeMove (m : Move) (s : State) : Outcome :=
  match m with
  | .writeReg ri v => .next (hostWriteReg ri v s)
  | .readReg ri => .next (hostReadReg ri s)
  | .writeMem a b => hostWriteMem a b s
  | .readMem a => hostReadMem a s
  | .wait n => .next (hostWait n s)
  | .reset => .next (resetCore s)
  | .core => coreMove s

/-- The next move, taken off the list; when no move is left the core moves, so a command always completes
(10_state R40, 70_reset_and_hazards R232; log entry 1). -/
def nextMove (s : State) : Outcome :=
  match s.moves with
  | [] => coreMove s
  | m :: ms => makeMove m { s with moves := ms }

/-- Put a command word where the core takes its next command: accepted in CMD, and the core to move next. -/
def placeWord (s : State) (w : Word) : State := { s with cmd := w, busy := true, moves := .core :: s.moves }

end Sys2Proof.Machine
end

