-- ==== Sys2Proof/Machine/Step.lean ====
section
/-!
DEFINITION. One step of the machine: the next move of the host, the reset input or the core (spec/00_scope.md R8,
spec/10_state.md R40, R44).
-/

namespace Sys2Proof.Machine

/-- One step. -/
def step (s : State) : Host.Outcome State Fault Refusal := nextMove s

/-- `s` with a command word of `nbits` bits accepted and about to be completed by the next step (log entry 2): the word
in CMD, BUSY set, and the core to move next. -/
def State.withFetchWord (s : State) (nbits w : Nat) : State := placeWord s (BitVec.ofNat 32 (w % 2 ^ nbits))

end Sys2Proof.Machine
end

