-- ==== Sys2Proof/Machine/HostProgram.lean ====
section
/-!
DEFINITION. The host's programs (spec/30_encoding.md R87, R88): statements and pseudo-instructions, and the bus operations
they stand for, as lists of moves.
-/

namespace Sys2Proof.Machine

/-- `WR reg, value` (30_encoding R87). -/
def wr (r : Reg) (v : Word) : Move := .writeReg r.index v

/-- `RD reg` (30_encoding R87). -/
def rd (r : Reg) : Move := .readReg r.index

/-- A command statement: write its word to CMD (30_encoding R87). -/
def command (i : Instr) : Move := .writeReg 0x00 (encode i)

/-- `.word ri, value`: a raw register write by index (30_encoding R87). -/
def rawWord (ri : BitVec 8) (v : Word) : Move := .writeReg ri v

/-- `SETLOC p, s` (30_encoding R88). -/
def setLoc (p s : BitVec 64) : List Move :=
  [wr .pebbleLo (low32 p), wr .pebbleHi (high32 p), wr .streamLo (low32 s), wr .streamHi (high32 s)]

/-- `GETLOC` (30_encoding R88). -/
def getLoc : List Move := [rd .pebbleLo, rd .pebbleHi, rd .streamLo, rd .streamHi]

/-- `SETKEY k0, ..., k7` (30_encoding R88). -/
def setKey (k : Vector Word 8) : List Move := (List.finRange 8).map fun i => wr (.key i) k[i]

/-- `SETPOS p0, p1, p2, p3` (30_encoding R88). -/
def setPos (p : Vector Word 4) : List Move := (List.finRange 4).map fun i => wr (.pos i) p[i]

/-- `SETN n` (30_encoding R88). -/
def setN (n : BitVec 64) : List Move := [wr .nLo (low32 n), wr .nHi (high32 n)]

/-- Word `i` of `u_544(v)` (30_encoding R88). -/
def boundWord (v : Int) (i : Nat) : Word := BitVec.ofNat 32 (unsignedBits 544 v >>> (32 * i))

/-- `SETMIN v`, for v in [-2^543, 2^543 - 1] (30_encoding R88). -/
def setMin (v : Int) : List Move := (List.finRange 17).map fun i => wr (.min i) (boundWord v i.val)

/-- `SETMAX v`, for v in [-2^543, 2^543 - 1] (30_encoding R88). -/
def setMax (v : Int) : List Move := (List.finRange 17).map fun i => wr (.max i) (boundWord v i.val)

/-- `SETS s0, ..., s15` (30_encoding R88). -/
def setS (x : Block) : List Move := (List.finRange 16).map fun i => wr (.sreg i) x[i]

/-- `RUN <command>`: the command, then WAIT, in which `n` reads find BUSY = 1 (30_encoding R88). -/
def run (i : Instr) (n : Nat) : List Move := command i :: wait n

end Sys2Proof.Machine
end

