-- ==== Sys2Proof/Safety.lean ====
section
/-!
DEFINITION. What claims are about: the invariant of the machine, and the discipline of a host that keeps the hazards of
spec/70_reset_and_hazards.md R230 and R233 and stays inside the output memory (spec/20_memory.md R63).
-/

namespace Sys2Proof

open Machine

/-- The invariant: OUT_SIZE is in its range (00_scope R9); the output memory is in canonical form and lists no address
outside [0, OUT_SIZE) (20_memory R60); and the raced addresses rise strictly, lie in the output memory and lie in the
destination of the running fill, so an idle core has none (20_memory R70). -/
structure MachineInv (s : State) : Prop where
  size_pos : 1 ≤ s.outSize
  size_le : s.outSize ≤ 2 ^ 32
  mem_wf : s.mem.wf
  mem_bound : ∀ c ∈ s.mem, c.1 < s.outSize
  raced_rising : s.raced.Pairwise (· < ·)
  raced_bound : ∀ a ∈ s.raced, a < s.outSize
  raced_dest : ∀ a ∈ s.raced, s.inDest a = true

/-- A move a disciplined host makes in a state: no register write while BUSY (70 R233), no access outside the output
memory (20_memory R63) and none to a running fill's destination (70 R230). -/
def Disciplined (s : State) : Move → Prop
  | .writeReg _ _ => s.busy = false
  | .readReg _ => True
  | .writeMem a _ => a < s.outSize ∧ s.inDest a = false
  | .readMem a => a < s.outSize ∧ s.inDest a = false
  | .wait _ => True
  | .reset => True
  | .core => True

end Sys2Proof
end

