-- ==== Sys2Proof/Certificates/Slice0/Obligations.lean ====
section
/-!
DEFINITION. The statements for the provers, each from the numbered rules of spec/, and the few words they share. A
statement about an instruction says what `exec` answers, under hypotheses on the state and the operands alone, and what
stays as it was (its frame).
-/

namespace Sys2Proof.Claim

open Machine

/-! ## Words the statements share -/

/-- The core moves next in `s`, and `s'` is `s` with that move taken: no move is left, or the first one is the core's. -/
def CoreNext (s s' : State) : Prop :=
  (s.moves = [] ∧ s' = s) ∨ ∃ ms, s.moves = .core :: ms ∧ s' = { s with moves := ms }

/-- The kernel is loaded, and is `k` (10_state R26). -/
def KernelIs (s : State) (k : Vector Word 8) : Prop := ∀ i : Fin 8, s.key[i] = some k[i]

/-- The round count is positive and even (10_state R25). -/
def RoundsOk (s : State) : Prop := 0 < s.rounds.toInt ∧ s.rounds.toInt % 2 = 0

/-- A command that runs the transform passes its kernel and rounds checks, with kernel `k` and round count `r`
(42_sampling R150). -/
def Ready (s : State) (k : Vector Word 8) (r : Nat) : Prop := KernelIs s k ∧ RoundsOk s ∧ s.rounds.toInt = r

/-- The command ends with error `e`, and nothing else changes but BUSY (60_exceptions R194). -/
def FailsWith (i : Instr) (s : State) (e : ErrorKind) : Prop := exec i s = .next { s with err := e, busy := false }

/-- The last locale index (41_locale R130). -/
def top : Nat := 2 ^ 128 - 1

/-- The commands that run the transform (60_exceptions R191). -/
def transformCommands : List Instr :=
  [.block, .blockraw, .fillb, .filli8, .filli16, .filli32, .filli64, .fillbig]

/-- The FILLI commands with their widths in bits (30_encoding R82). -/
def narrowFills : List (Instr × Nat) := [(.filli8, 8), (.filli16, 16), (.filli32, 32), (.filli64, 64)]

/-- The fill commands with the bytes of one element (20_memory R66). -/
def fills : List (Instr × Nat) :=
  [(.fillb, 1), (.filli8, 1), (.filli16, 2), (.filli32, 4), (.filli64, 8), (.fillbig, 64)]

/-- The sampling fills with the bytes of one element (42_sampling R164, R173). -/
def samplingFills : List (Instr × Nat) := [(.filli8, 1), (.filli16, 2), (.filli32, 4), (.filli64, 8), (.fillbig, 64)]

/-- Whether a command reads and may write the locale: all but BLOCKRAW and QROUND (10_state R35). -/
def UsesLocale (i : Instr) : Prop := i ≠ .blockraw ∧ ∀ a b c d, i ≠ .qround a b c d

/-- Two states agree on every register that the command reads, by the R entries of 10_state R35, and on the two
parameters. -/
structure SameOperands (i : Instr) (s u : State) : Prop where
  outSize : u.outSize = s.outSize
  posOrder : u.posOrder = s.posOrder
  kernelAndRounds : i ∈ transformCommands → u.key = s.key ∧ u.rounds = s.rounds
  locale : UsesLocale i → u.locale = s.locale
  count : i = .skip ∨ i = .mock → u.nLo = s.nLo ∧ u.nHi = s.nHi
  destination : i ∈ fills.map Prod.fst → u.dst = s.dst ∧ u.count = s.count
  position : i = .blockraw → u.pos = s.pos
  bounds : i ∈ samplingFills.map Prod.fst → u.minWords = s.minWords ∧ u.maxWords = s.maxWords
  quarterState : (∃ a b c d, i = .qround a b c d) → u.sreg = s.sreg

/-- The most steps a move takes before the next one, while a command runs. -/
def turnsOf : Move → Nat
  | .writeReg _ _ => 1
  | .readReg _ => 1
  | .writeMem _ _ => 1
  | .readMem _ => 1
  | .wait n => n + 1
  | .reset => 1
  | .core => 1

/-- FILLI of width `w`'s lower bound: the low `w` bits of MIN1, MIN0, signed (10_state R34). -/
def lowBound (w : Nat) (s : State) : Int := narrowBound w s.minWords

/-- FILLI of width `w`'s upper bound (10_state R34). -/
def highBound (w : Nat) (s : State) : Int := narrowBound w s.maxWords

/-- FILLBIG's lower bound, MINV (10_state R34). -/
def bigLow (s : State) : Int := wideBound s.minWords

/-- FILLBIG's upper bound, MAXV (10_state R34). -/
def bigHigh (s : State) : Int := wideBound s.maxWords

/-- FILLBIG's bounds both lie in the 512-bit signed envelope (42_sampling R170). -/
def BoundsInEnvelope (s : State) : Prop :=
  -2 ^ 511 ≤ bigLow s ∧ bigLow s ≤ 2 ^ 511 - 1 ∧ -2 ^ 511 ≤ bigHigh s ∧ bigHigh s ≤ 2 ^ 511 - 1

/-- The range value of two bounds (42_sampling R153). -/
def rangeOf (mn mx : Int) : Nat := (mx - mn - 1).toNat

/-- Draw `n` of FILLI's draw stream, counted from 0: 64-bit word `n mod 8` of the block at index `idx(L) + n / 8`
(42_sampling R160). -/
def draw (s : State) (k : Vector Word 8) (r n : Nat) : Nat :=
  ((u64View (s.blockAt k r (s.locale.index + n / 8)))[n % 8]'(Nat.mod_lt _ (by decide))).toNat

/-- Attempt `n` of FILLBIG, counted from 0: the whole block at index `idx(L) + n` (42_sampling R171). -/
def attempt (s : State) (k : Vector Word 8) (r n : Nat) : Nat := bigView (s.blockAt k r (s.locale.index + n))

/-- The accepted values among the first `d` raw draws: masked, and at most `range`, in order (42_sampling R161). -/
def accepted (raw : Nat → Nat) (range d : Nat) : List Nat :=
  ((List.range d).map fun n => raw n &&& smear range).filter fun m => decide (m ≤ range)

/-- The number `d` of draws a command makes for `count` elements: `count` of them are accepted, and the last one is
(42_sampling R160, R161). -/
def DrawsFor (raw : Nat → Nat) (range count d : Nat) : Prop :=
  (accepted raw range d).length = count ∧ (d = 0 ∨ raw (d - 1) &&& smear range ≤ range)

/-- Every byte outside [a, a + n) reads in `t` as in `s`. -/
def SameOutside (s t : State) (a n : Nat) : Prop := ∀ x, x < a ∨ a + n ≤ x → t.byte x = s.byte x

/-- `t` is `s` but for ERR, BUSY, the locale and the output memory. -/
def OnlyFillChanges (s t : State) : Prop :=
  t = { s with err := t.err, busy := t.busy, mem := t.mem, pebbleLo := t.pebbleLo, pebbleHi := t.pebbleHi,
               streamLo := t.streamLo, streamHi := t.streamHi }

/-- `t` is `s` but for ERR, BUSY and the locale. -/
def OnlyLocaleChanges (s t : State) : Prop :=
  t = { s with err := t.err, busy := t.busy, pebbleLo := t.pebbleLo, pebbleHi := t.pebbleHi,
               streamLo := t.streamLo, streamHi := t.streamHi }

/-- `t` is `s` but for ERR, BUSY, the output memory and the free values used. -/
def OnlyMemoryChanges (s t : State) : Prop :=
  t = { s with err := t.err, busy := t.busy, mem := t.mem, fresh := t.fresh }

/-- Element `e` of `n` bytes of a fill's destination holds `v`, little-endian two's complement (42_sampling R164,
R173). -/
def ElementIs (t : State) (dst n e : Nat) (v : Int) : Prop :=
  t.memRead (dst + e * n) n = (v % 2 ^ (8 * n)).toNat

/-- A sampling fill that makes `d` draws, of which `perBlock` come from each block, ends with success: element after
element holds minVal plus its accepted value, the locale moves on by the blocks generated, and nothing else changes. -/
def SamplingSucceeds (i : Instr) (s : State) (raw : Nat → Nat) (mn : Int) (range d perBlock esize : Nat) : Prop :=
  ∃ t, exec i s = .next t ∧ t.err = .ok ∧ t.busy = false ∧
    t.locale.index = s.locale.index + (d + perBlock - 1) / perBlock ∧
    (∀ e v, (accepted raw range d)[e]? = some v → ElementIs t s.dst.toNat esize e (mn + v)) ∧
    OnlyFillChanges s t ∧ SameOutside s t s.dst.toNat (s.count.toNat * esize)

/-- `t` is `s` after a LocaleOverflow inside a sampling fill of `esize`-byte elements: every byte of the destination is
some free byte, and nothing else has changed but ERR and BUSY (42_sampling R172). -/
def FreedDestination (s t : State) (esize : Nat) : Prop :=
  t.err = .localeOverflow ∧ t.busy = false ∧
    (∀ j < s.count.toNat * esize, ∃ n, t.byte (s.dst.toNat + j) = Config.freeByte n) ∧
    OnlyMemoryChanges s t ∧ SameOutside s t s.dst.toNat (s.count.toNat * esize)

/-- A sampling fill ends with LocaleOverflow and a free destination (42_sampling R172). -/
def SamplingOverflows (i : Instr) (s : State) (esize : Nat) : Prop :=
  ∃ t, exec i s = .next t ∧ FreedDestination s t esize

end Sys2Proof.Claim

open Sys2Proof Sys2Proof.Machine Sys2Proof.Claim

/-! ## Encoding (30_encoding) -/

/-- Words written out bit by bit from the encoding table of R83 decode to the commands they stand for, and words R85
names do not decode. -/
def Obligations.SpecWordsDecodeAsWritten : Prop :=
  decode 0b00000000000000000000000000000001#32 = .ok .block ∧
  decode 0b00000000000000000000000000000010#32 = .ok .blockraw ∧
  decode 0b00000000000000000000000000000011#32 = .ok .skip ∧
  decode 0b00000000000000000000000000000100#32 = .ok .mock ∧
  decode 0b00000000000000000000000000000101#32 = .ok .fillb ∧
  decode 0b00000000000000000000000000000110#32 = .ok .filli8 ∧
  decode 0b00000000000000000000000100000110#32 = .ok .filli16 ∧
  decode 0b00000000000000000000001000000110#32 = .ok .filli32 ∧
  decode 0b00000000000000000000001100000110#32 = .ok .filli64 ∧
  decode 0b00000000000000000000000000000111#32 = .ok .fillbig ∧
  decode 0b11011000011100100000000000001000#32 = .ok (.qround 2 7 8 13) ∧
  decode 0x00000000#32 = .error (.noSuchOperation 0) ∧
  decode 0x00000011#32 = .error (.fieldNotZero 1)

/-- Decoding the word of any instruction gives that instruction back, with every operand at every value (R83, R84). -/
def Obligations.DecodeOfEncodeGivesInstructionBack : Prop :=
  ∀ i : Instr, i.wellFormed = true → decode (encode i) = .ok i

/-- The decoder accepts exactly the words R84 calls legal, every other word being an illegal command (R85), and a word
that decodes is the word of what it decodes to, so each legal word names one command, operands included (R86). -/
def Obligations.LegalWordsAreExactlyTheCommandWords : Prop :=
  (∀ c : Word, (∃ i, decode c = .ok i) ↔ legal c = true) ∧
  (∀ (c : Word) (i : Instr), decode c = .ok i → encode i = c)

/-- At most one row of the encoding table matches a word (R84). -/
def Obligations.EncodingRowsNeverOverlap : Prop :=
  rows.Pairwise fun p q => ∀ c : Word, ¬ (p.holds c = true ∧ q.holds c = true)

/-- Of the 2^32 words, 10 + 2^16 are legal (R86). -/
def Obligations.LegalWordsAreTenAndTwoToTheSixteen : Prop :=
  Nat.card (Subtype fun c : Word => legal c = true) = 10 + 2 ^ 16

/-! ## The step (10_state R40, R23, R42) -/

/-- A step is the next move. When the core moves next, a command runs and the word in CMD decodes to `i`, it is `exec i`,
on the state with that move taken, followed by the settling of the host's races with it; with no raced byte the settling
changes nothing. A register or memory access of the host and a reset are those of its ports, on the state with the move
taken (R40, R44). The last clause is the model's choice (log entry 17): a turn of the host's WAIT is a read of STATUS, at
least one, which ends the loop when BUSY = 0 and goes on with it when BUSY = 1, where the number of turns the move carries
says when the core moves; the spec's loop fixes no such number. -/
def Obligations.StepRunsDecodedCommand : Prop :=
  (∀ s s' i, CoreNext s s' → s.busy = true → decode s.cmd = .ok i → step s = settle (exec i s')) ∧
  (∀ t : State, t.raced = [] → settle (.next t) = .next t) ∧
  (∀ t : State, settle (.next t) = .next { t with mem := t.settleRaces.mem, fresh := t.settleRaces.fresh, raced := [] }) ∧
  (∀ (s : State) (ms : List Move),
    let u := { s with moves := ms }
    (∀ ri v, s.moves = .writeReg ri v :: ms → step s = .next (hostWriteReg ri v u)) ∧
    (∀ ri, s.moves = .readReg ri :: ms → step s = .next (hostReadReg ri u)) ∧
    (∀ a b, s.moves = .writeMem a b :: ms → step s = hostWriteMem a b u) ∧
    (∀ a, s.moves = .readMem a :: ms → step s = hostReadMem a u) ∧
    (s.moves = .reset :: ms → step s = .next (resetCore u)) ∧
    (∀ n, s.moves = .wait n :: ms →
      (s.busy = false → step s = .next { u with got := .reg 0x01 s.statusWord :: s.got }) ∧
      (s.busy = true →
        step s = .next { u with got := .reg 0x01 s.statusWord :: s.got, moves := Machine.wait n ++ ms })))

/-- A running illegal word completes with IllegalCommand and changes nothing but ERR and BUSY (R85). -/
def Obligations.IllegalWordChangesOnlyErr : Prop :=
  ∀ s s', MachineInv s → CoreNext s s' → s.busy = true → legal s.cmd = false →
    step s = .next { s' with err := .illegalCommand, busy := false }

/-- A CMD write while idle is accepted whatever the word: CMD takes it, BUSY is set, and nothing else changes (R23). -/
def Obligations.CmdWriteWhileIdleStartsCommand : Prop :=
  ∀ (s : State) (c : Word) (ms : List Move), s.busy = false → s.moves = .writeReg 0x00 c :: ms →
    step s = .next { s with cmd := c, busy := true, moves := ms }

/-- While BUSY every host write to the register port is dropped: no register changes and no error is recorded (R42). -/
def Obligations.RegisterWritesWhileBusyAreDropped : Prop :=
  ∀ (s : State) (ri : BitVec 8) (v : Word) (ms : List Move), s.busy = true → s.moves = .writeReg ri v :: ms →
    step s = .next { s with moves := ms }

/-- Every running command, legal or not, completes in the core's one move: BUSY is 0 after it (R40). -/
def Obligations.CoreMoveCompletesEveryCommand : Prop :=
  ∀ s s', CoreNext s s' → s.busy = true → ∃ t, step s = .next t ∧ t.busy = false ∧ t.raced = [] ∧ t.moves = s'.moves

/-- A running command completes whatever moves the host makes, as long as it does not reset the core (R222) and its memory
accesses lie in the output memory: BUSY is 0, with the same word in CMD, after some number of steps (R40, R232). The bound
on that number, one step more than the turns of the moves left, is the model's own: it lets the core move when no move is
left (log entry 1), and the spec gives no bound. And RUN completes: on an idle core it writes CMD, reads STATUS with
BUSY = 1 any number `n` of times and then with BUSY = 0, and leaves the core idle, in n + 3 steps. That the RUN carries its
number of reads, and that it reads at least once, is the model's choice (log entry 17), not a rule of the spec. -/
def Obligations.CommandCompletesUnderEverySchedule : Prop :=
  (∀ s : State, s.busy = true → .reset ∉ s.moves →
    (∀ m ∈ s.moves, ∀ a b, (m = .writeMem a b → a < s.outSize) ∧ (m = .readMem a → a < s.outSize)) →
    ∃ n ≤ (s.moves.map turnsOf).sum, ∃ t, Host.Core.run core (n + 1) s = .next t ∧ t.busy = false ∧ t.cmd = s.cmd) ∧
  (∀ (s : State) (i : Instr) (n : Nat) (ms : List Move), s.busy = false → s.moves = Machine.run i n ++ ms →
    ∃ t, Host.Core.run core (n + 3) s = .next t ∧ t.busy = false ∧ t.cmd = encode i ∧ t.moves = ms ∧
      t.got = .reg 0x01 s.statusWord :: (List.replicate n (.reg 0x01 (s.statusWord ||| 1)) ++ s.got))

/-- The only stop of the machine is the host's access to an output memory address at or above OUT_SIZE, and nothing is
refused. The spec puts such an access outside itself (20_memory R63, 93 U19); that it faults is the model's choice (log
entry 13). -/
def Obligations.OnlyAbsentHostAddressesStopTheMachine : Prop :=
  (∀ s f, step s = .fault f → ∃ a, f = .hostAddressAbsent a ∧ s.outSize ≤ a ∧
    ∃ ms, (∃ b, s.moves = .writeMem a b :: ms) ∨ s.moves = .readMem a :: ms) ∧
  (∀ s r, step s ≠ .refused r) ∧
  (∀ (s : State) (a : Nat) (b : Byte) (ms : List Move), s.outSize ≤ a →
    (s.moves = .writeMem a b :: ms ∨ s.moves = .readMem a :: ms) → step s = .fault (.hostAddressAbsent a))

/-- A move of a disciplined host never stops the machine and never races with a fill (70 R230, R233). -/
def Obligations.DisciplinedMovesGoOnWithoutRaces : Prop :=
  ∀ (s : State) (m : Move) (ms : List Move), s.moves = m :: ms → Disciplined s m → s.raced = [] →
    ∃ t, step s = .next t ∧ t.raced = []

/-! ## Whole-machine rules -/

/-- Every step keeps the invariant: OUT_SIZE in its range, the output memory in canonical form and inside OUT_SIZE, the
raced bytes inside the running fill's destination (00_scope R9, 20_memory R60, R70). -/
def Obligations.StepKeepsInvariant : Prop :=
  ∀ s t, MachineInv s → step s = .next t → MachineInv t

/-- The state after reset meets the invariant. It rests on the model's choice of OUT_SIZE there (log entry 3) only in
that 65536 is in R9's range. -/
def Obligations.ResetStateMeetsInvariant : Prop := MachineInv State.reset

/-- No step changes OUT_SIZE or POS_ORDER (00_scope R9, 10_state R44). -/
def Obligations.NoStepChangesParameters : Prop :=
  ∀ s t, step s = .next t → t.outSize = s.outSize ∧ t.posOrder = s.posOrder

/-- Only reset clears a KEYMASK bit: any other step keeps every loaded kernel word loaded (10_state R27). -/
def Obligations.OnlyResetUnloadsKernelWords : Prop :=
  ∀ s t, step s = .next t → (∀ ms, s.moves ≠ .reset :: ms) →
    ∀ i : Fin 8, s.keyMask.getLsbD i = true → t.keyMask.getLsbD i = true

/-- No command writes a configuration register, the parameters, or what is the host's; BLK is written by BLOCK and
BLOCKRAW only, S by QROUND only, the locale not by BLOCKRAW or QROUND, and the output memory by the fills only
(10_state R35, R37). -/
def Obligations.CommandsWriteOnlyTheirRegisters : Prop :=
  ∀ i s t, exec i s = .next t →
    (t.cmd = s.cmd ∧ t.rounds = s.rounds ∧ t.key = s.key ∧ t.nLo = s.nLo ∧ t.nHi = s.nHi ∧ t.dst = s.dst ∧
      t.count = s.count ∧ t.pos = s.pos ∧ t.minWords = s.minWords ∧ t.maxWords = s.maxWords ∧
      t.outSize = s.outSize ∧ t.posOrder = s.posOrder ∧ t.raced = s.raced ∧ t.got = s.got ∧ t.moves = s.moves) ∧
    (i ≠ .block → i ≠ .blockraw → t.blk = s.blk) ∧
    ((∀ a b c d, i ≠ .qround a b c d) → t.sreg = s.sreg) ∧
    (i = .blockraw ∨ (∃ a b c d, i = .qround a b c d) → t.locale = s.locale) ∧
    (i ∉ fills.map Prod.fst → t.mem = s.mem)

/-- A fill never writes a byte outside its destination [DST, DST + COUNT * esize), whatever its outcome
(20_memory R66). -/
def Obligations.FillsWriteOnlyTheirDestination : Prop :=
  ∀ p ∈ fills, ∀ s t, exec p.1 s = .next t → SameOutside s t s.dst.toNat (s.count.toNat * p.2)

/-- An error commits nothing but ERR and BUSY, except LocaleOverflow inside FILLI and FILLBIG, which leaves the locale
and every register, makes each byte of the destination any value, and leaves every other byte (60_exceptions R194,
42_sampling R172). -/
def Obligations.ErrorsCommitNothingElse : Prop :=
  ∀ i s t, exec i s = .next t → t.err ≠ .ok →
    t = { s with err := t.err, busy := false } ∨ ∃ p ∈ samplingFills, i = p.1 ∧ FreedDestination s t p.2

/-- Each command completes with OK or with an error kind that R191 lists for it. -/
def Obligations.CommandsRaiseOnlyTheirErrors : Prop :=
  ∀ i s t, exec i s = .next t →
    t.err = .ok ∨
    (t.err = .invalidKernel ∧ i ∈ transformCommands) ∨
    (t.err = .invalidRounds ∧ i ∈ transformCommands) ∨
    (t.err = .invalidRange ∧ i ∈ [.filli8, .filli16, .filli32, .filli64, .fillbig]) ∨
    (t.err = .invalidWidth ∧ i = .fillbig) ∨
    (t.err = .localeOverflow ∧
      i ∈ [.block, .skip, .mock, .fillb, .filli8, .filli16, .filli32, .filli64, .fillbig]) ∨
    (t.err = .invalidBuffer ∧ i ∈ fills.map Prod.fst)

/-- No command ever moves the locale backwards, so none wraps the stream (41_locale R135, R137). -/
def Obligations.CommandsNeverMoveLocaleBack : Prop :=
  ∀ i s t, exec i s = .next t → s.locale.index ≤ t.locale.index

/-- A command's outcome is a function of the registers it reads and of the two parameters: in two states that agree on
those, whatever else they hold, it completes with the same error, the same locale where it may write it, the same S
where it is QROUND, and on success the same BLK where it is BLOCK or BLOCKRAW and the same destination bytes where it is a
fill (00_scope R7, 40 R115). -/
def Obligations.OutcomeDependsOnOperandsAlone : Prop :=
  ∀ i s u t, SameOperands i s u → exec i s = .next t →
    ∃ t', exec i u = .next t' ∧ t'.err = t.err ∧
      (UsesLocale i → t'.locale = t.locale) ∧
      ((∃ a b c d, i = .qround a b c d) → t'.sreg = t.sreg) ∧
      (t.err = .ok → i = .block ∨ i = .blockraw → t'.blk = t.blk) ∧
      (t.err = .ok → ∀ p ∈ fills, i = p.1 → ∀ x, s.dst.toNat ≤ x → x < s.dst.toNat + s.count.toNat * p.2 →
        t'.byte x = t.byte x)

/-! ## Block transform family (40_block_core) -/

/-- The quarter round on four different words: the published four lines on the four words, and the other words as they
were (R103, R109). -/
def Obligations.QuarterRoundOnFourDifferentWords : Prop :=
  ∀ (x : Block) (a b c d : Fin 16), [a, b, c, d].Nodup →
    let a1 := x[a] + x[b]
    let d1 := rotl32 (x[d] ^^^ a1) 16
    let c1 := x[c] + d1
    let b1 := rotl32 (x[b] ^^^ c1) 12
    let a2 := a1 + b1
    let d2 := rotl32 (d1 ^^^ a2) 8
    let c2 := c1 + d2
    let b2 := rotl32 (b1 ^^^ c2) 7
    let y := quarterRound x a b c d
    y[a] = a2 ∧ y[b] = b2 ∧ y[c] = c2 ∧ y[d] = d2 ∧ ∀ i : Fin 16, i ∉ [a, b, c, d] → y[i] = x[i]

/-- QROUND completes in every state and for all indices, equal ones included: S is the result of the twelve steps of
R103 in order, each reading what the steps before it wrote, ERR is OK, and nothing else changes (R109). -/
def Obligations.QroundCompletesWithTwelveSteps : Prop :=
  ∀ (a b c d : BitVec 4) (s : State), exec (.qround a b c d) s =
    .next { s with
      err := .ok
      busy := false
      sreg :=
        let A : Fin 16 := ⟨a.toNat, a.isLt⟩
        let B : Fin 16 := ⟨b.toNat, b.isLt⟩
        let C : Fin 16 := ⟨c.toNat, c.isLt⟩
        let D : Fin 16 := ⟨d.toNat, d.isLt⟩
        let add (i j : Fin 16) (x : Block) : Block := x.set i (x[i] + x[j])
        let xor (i j : Fin 16) (x : Block) : Block := x.set i (x[i] ^^^ x[j])
        let rot (i : Fin 16) (n : Nat) (x : Block) : Block := x.set i (x[i].rotateLeft n)
        List.foldl (fun x f => f x) s.sreg
          [add A B, xor D A, rot D 16, add C D, xor B C, rot B 12,
           add A B, xor D A, rot D 8, add C D, xor B C, rot B 7] }

/-- The transform is the word-by-word sum of the initial state and of r/2 double-rounds on it; the initial state is the
constants, the kernel and the position in that order; and a double-round is the eight quarter rounds in their order, the
four columns and then the four diagonals (R101, R105, R106). -/
def Obligations.TransformSumsInitialAndMixedState : Prop :=
  (∀ (k : Vector Word 8) (p : Vector Word 4) (r : Nat),
    (∀ i : Fin 16, (transform k p r)[i] = (initialState k p)[i] + (doubleRound^[r / 2] (initialState k p))[i]) ∧
    (∀ i : Fin 4, (initialState k p)[i.val] = [0x61707865#32, 0x3320646e#32, 0x79622d32#32, 0x6b206574#32][i.val]) ∧
    (∀ i : Fin 8, (initialState k p)[4 + i.val] = k[i]) ∧
    (∀ i : Fin 4, (initialState k p)[12 + i.val] = p[i])) ∧
  (∀ x : Block, doubleRound x =
    List.foldl (fun y (g : Fin 16 × Fin 16 × Fin 16 × Fin 16) => quarterRound y g.1 g.2.1 g.2.2.1 g.2.2.2) x
      [(0, 4, 8, 12), (1, 5, 9, 13), (2, 6, 10, 14), (3, 7, 11, 15),
       (0, 5, 10, 15), (1, 6, 11, 12), (2, 7, 8, 13), (3, 4, 9, 14)])

/-- The transform reproduces the published vectors of the original cipher: the quarter round of V1, the block of V3 with
the first bytes and the first 64-bit value of its views (V5), and the zero-key block of V4 (R114). -/
def Obligations.TransformReproducesPublishedVectors : Prop :=
  let k : Vector Word 8 :=
    #v[0x03020100, 0x07060504, 0x0b0a0908, 0x0f0e0d0c, 0x13121110, 0x17161514, 0x1b1a1918, 0x1f1e1d1c]
  let w := transform k #v[0x00000001, 0x09000000, 0x4a000000, 0x00000000] 20
  let x : Block := #v[0x11111111, 0x01020304, 0x9b8d6f43, 0x01234567, 0, 0, 0, 0, 0, 0, 0, 0, 0, 0, 0, 0]
  quarterRound x 0 1 2 3 = #v[0xea2a92f4, 0xcb1cf8ce, 0x4581472e, 0x5881c4bb, 0, 0, 0, 0, 0, 0, 0, 0, 0, 0, 0, 0] ∧
  w = #v[0xe4e7f110, 0x15593bd1, 0x1fdd0f50, 0xc47120a3, 0xc7f4d1c7, 0x0368c033, 0x9aaa2204, 0x4e6cd4c3,
    0x466482d2, 0x09aa9f07, 0x05d7c214, 0xa2028bd9, 0xd19c12b5, 0xb94e16de, 0xe883d0cb, 0x4e3c50a2] ∧
  (byteView w).take 8 = [0x10#8, 0xf1#8, 0xe7#8, 0xe4#8, 0xd1#8, 0x3b#8, 0x59#8, 0x15#8] ∧
  (u64View w)[0] = 0x15593bd1e4e7f110#64 ∧
  transform (Vector.replicate 8 0) (Vector.replicate 4 0) 20 =
    #v[0xade0b876, 0x903df1a0, 0xe56a5d40, 0x28bd8653, 0xb819d2bd, 0x1aed8da0, 0xccef36a8, 0xc70d778b,
      0x7c5941da, 0x8d485751, 0x3fe02477, 0x374ad8b8, 0xf4b8436a, 0x1ca11815, 0x69b687c3, 0x8665eeb2]

/-- BLOCK completes when the kernel is loaded, the rounds are positive and even and the locale is not the last: BLK is
the block at the locale, the locale index grows by one, and nothing else changes (R107). -/
def Obligations.BlockCompletesAndAdvancesByOne : Prop :=
  ∀ s k r, Ready s k r → s.locale.index < top →
    ∃ t, exec .block s = .next t ∧ t.err = .ok ∧ t.busy = false ∧
      t.blk = transform k (positionWords s.posOrder s.locale) r ∧ t.locale.index = s.locale.index + 1 ∧
      t = { s with err := t.err, busy := t.busy, blk := t.blk, pebbleLo := t.pebbleLo, pebbleHi := t.pebbleHi,
                   streamLo := t.streamLo, streamHi := t.streamHi }

/-- BLOCKRAW completes when the kernel is loaded and the rounds are positive and even: BLK is the transform of the raw
position words, and nothing else changes, the locale included (R108). -/
def Obligations.BlockrawCompletesOnRawPosition : Prop :=
  ∀ s k r, Ready s k r →
    exec .blockraw s = .next { s with err := .ok, busy := false, blk := transform k s.pos r }

/-- The views of a block by its words: byte 4i + j is byte j of word i, least significant first (R110); 64-bit value i is
word 2i plus 2^32 times word 2i + 1 (R111); the big integer is the words in base 2^32, and so the 64-bit values in base
2^64 and the bytes in base 256, least significant first (R112). And they convert one value: the byte view has 64 bytes,
and words of bytes and words of 64-bit pairs give the block back, both ways (R113). -/
def Obligations.BlockViewsConvertOneValue : Prop :=
  (∀ (w : Block) (i : Fin 16) (j : Fin 4),
    (byteView w)[4 * i.val + j.val]?.map BitVec.toNat = some (w[i].toNat / 2 ^ (8 * j.val) % 256)) ∧
  (∀ (w : Block) (i : Fin 8), (u64View w)[i].toNat = w[2 * i.val].toNat + 2 ^ 32 * w[2 * i.val + 1].toNat) ∧
  (∀ w : Block,
    bigView w = ((List.finRange 16).map fun i => w[i].toNat * 2 ^ (32 * i.val)).sum ∧
    bigView w = ((u64View w).toList.zipIdx.map fun p => p.1.toNat * 2 ^ (64 * p.2)).sum ∧
    bigView w = ((byteView w).zipIdx.map fun p => p.1.toNat * 256 ^ p.2).sum) ∧
  (∀ w : Block, (byteView w).length = 64 ∧ wordsOfBytes (byteView w) = w.toList ∧ unpair (u64View w) = w) ∧
  (∀ q : Vector (BitVec 64) 8, u64View (unpair q) = q) ∧
  (∀ b : List Byte, b.length = 64 → ∃ w : Block, byteView w = b)

/-- The position words of a locale, its four halves as numbers, under both values of POS_ORDER (R104). -/
def Obligations.PositionWordsFollowPosOrder : Prop :=
  ∀ l : Machine.Locale,
    (positionWords .hiLo l).toList.map BitVec.toNat =
      [l.pebble.toNat / 2 ^ 32, l.pebble.toNat % 2 ^ 32, l.stream.toNat / 2 ^ 32, l.stream.toNat % 2 ^ 32] ∧
    (positionWords .loHi l).toList.map BitVec.toNat =
      [l.pebble.toNat % 2 ^ 32, l.pebble.toNat / 2 ^ 32, l.stream.toNat % 2 ^ 32, l.stream.toNat / 2 ^ 32]

/-! ## Locale family (41_locale) -/

/-- A locale and its index are each the other's inverse, and the order of indices is lexicographic on (stream, pebble)
(R130, R131). -/
def Obligations.LocaleIndexIsOrderedBijection : Prop :=
  (∀ l : Machine.Locale, Machine.Locale.ofIndex l.index = l ∧ l.index ≤ top) ∧
  (∀ i ≤ top, (Machine.Locale.ofIndex i).index = i) ∧
  (∀ l m : Machine.Locale, l.index < m.index ↔ l.stream < m.stream ∨ (l.stream = m.stream ∧ l.pebble < m.pebble))

/-- The wrap-and-carry algorithm of Skip is addition on the locale index, and fails exactly past 2^128 - 1 (R132). -/
def Obligations.SkipIsAdditionOnTheIndex : Prop :=
  ∀ (l : Machine.Locale) (n : BitVec 64),
    (l.index + n.toNat ≤ top → l.skip n = some (Machine.Locale.ofIndex (l.index + n.toNat))) ∧
    (top < l.index + n.toNat → l.skip n = none)

/-- Skip and Mock by 0 are the identity at every locale, the last one included; by any positive count they fail at the
last locale; and so do the commands: SKIP and MOCK with N = 0 end with OK and the locale as it was, and with N > 0 at the
last locale they fail with LocaleOverflow (R133). -/
def Obligations.ZeroAdvanceIsIdentityAndTopIsFinal : Prop :=
  (∀ l : Machine.Locale, l.skip 0 = some l ∧ l.mock 0 = some l) ∧
  (∀ n : BitVec 64, n ≠ 0 →
    (Machine.Locale.ofIndex top).skip n = none ∧ (Machine.Locale.ofIndex top).mock n = none) ∧
  (∀ s : State, s.nLo = 0 → s.nHi = 0 → ∀ i ∈ [Instr.skip, .mock],
    ∃ t, exec i s = .next t ∧ t.err = .ok ∧ t.locale = s.locale) ∧
  (∀ s : State, s.locale.index = top → s.nLo ≠ 0 ∨ s.nHi ≠ 0 → ∀ i ∈ [Instr.skip, .mock],
    FailsWith i s .localeOverflow)

/-- On a one-block advance the pebble is 0 exactly when the stream increments (R136). -/
def Obligations.OneBlockWrapCarriesIntoStream : Prop :=
  ∀ l m : Machine.Locale, l.skip 1 = some m →
    (m.pebble = 0 ↔ m.stream.toNat = l.stream.toNat + 1) ∧ (m.pebble ≠ 0 ↔ m.stream = l.stream)

/-- SKIP completes when idx(L) + N does not pass 2^128 - 1, and the index grows by N; MOCK completes when
idx(L) + ceil(N / 64) does not, and the index grows by ceil(N / 64); nothing else changes (R138, R139). -/
def Obligations.SkipAndMockCompleteByTheirCounts : Prop :=
  (∀ s : State, s.locale.index + (2 ^ 32 * s.nHi.toNat + s.nLo.toNat) ≤ top →
    ∃ t, exec .skip s = .next t ∧ t.err = .ok ∧ t.busy = false ∧
      t.locale.index = s.locale.index + (2 ^ 32 * s.nHi.toNat + s.nLo.toNat) ∧ OnlyLocaleChanges s t) ∧
  (∀ s : State, s.locale.index + (2 ^ 32 * s.nHi.toNat + s.nLo.toNat + 63) / 64 ≤ top →
    ∃ t, exec .mock s = .next t ∧ t.err = .ok ∧ t.busy = false ∧
      t.locale.index = s.locale.index + (2 ^ 32 * s.nHi.toNat + s.nLo.toNat + 63) / 64 ∧ OnlyLocaleChanges s t)

/-! ## Errors in their order (60_exceptions R191, R193) -/

/-- A command that runs the transform ends with InvalidKernel when KEYMASK is not 0xFF, before any other check, and,
with a loaded kernel, with InvalidRounds when the rounds are not positive and even, before any later check; KEYMASK is
0xFF exactly when all eight words are loaded (R191, R193, 42 R150). -/
def Obligations.KernelThenRoundsAreCheckedFirst : Prop :=
  (∀ i ∈ transformCommands, ∀ s : State, s.keyMask ≠ 0xFF#8 → FailsWith i s .invalidKernel) ∧
  (∀ i ∈ transformCommands, ∀ s : State, s.keyMask = 0xFF#8 → ¬ RoundsOk s → FailsWith i s .invalidRounds) ∧
  (∀ s : State, s.keyMask = 0xFF#8 ↔ ∃ k, KernelIs s k)

/-- FILLI and FILLBIG end with InvalidRange when maxVal - minVal < 2 in exact arithmetic, before the width and buffer
checks (R153), and FILLBIG with InvalidWidth when, past that check, a bound lies outside the 512-bit signed envelope,
before the buffer check (R170). -/
def Obligations.BoundsAreCheckedForRangeThenWidth : Prop :=
  ∀ s k r, Ready s k r →
    (∀ p ∈ narrowFills, highBound p.2 s - lowBound p.2 s < 2 → FailsWith p.1 s .invalidRange) ∧
    (bigHigh s - bigLow s < 2 → FailsWith .fillbig s .invalidRange) ∧
    (2 ≤ bigHigh s - bigLow s → ¬ BoundsInEnvelope s → FailsWith .fillbig s .invalidWidth)

/-- A fill whose destination does not fit in the output memory ends with InvalidBuffer, in exact arithmetic, once its
earlier checks pass, before LocaleOverflow (R151). -/
def Obligations.DestinationOutsideMemoryIsInvalidBuffer : Prop :=
  ∀ s k r, Ready s k r →
    (s.outSize < s.dst.toNat + s.count.toNat → FailsWith .fillb s .invalidBuffer) ∧
    (∀ p ∈ narrowFills, 2 ≤ highBound p.2 s - lowBound p.2 s →
      s.outSize < s.dst.toNat + s.count.toNat * (p.2 / 8) → FailsWith p.1 s .invalidBuffer) ∧
    (2 ≤ bigHigh s - bigLow s → BoundsInEnvelope s → s.outSize < s.dst.toNat + s.count.toNat * 64 →
      FailsWith .fillbig s .invalidBuffer)

/-- BLOCK, SKIP, MOCK and FILLB end with LocaleOverflow, with nothing done, when the advance they need passes
2^128 - 1 (R107, R138, R139, R157). -/
def Obligations.AdvancePastTopIsLocaleOverflow : Prop :=
  (∀ s k r, Ready s k r → s.locale.index = top → FailsWith .block s .localeOverflow) ∧
  (∀ s : State, top < s.locale.index + (2 ^ 32 * s.nHi.toNat + s.nLo.toNat) → FailsWith .skip s .localeOverflow) ∧
  (∀ s : State, top < s.locale.index + (2 ^ 32 * s.nHi.toNat + s.nLo.toNat + 63) / 64 →
    FailsWith .mock s .localeOverflow) ∧
  (∀ s k r, Ready s k r → s.dst.toNat + s.count.toNat ≤ s.outSize →
    top < s.locale.index + (s.count.toNat + 63) / 64 → FailsWith .fillb s .localeOverflow)

/-! ## Sampling family (42_sampling) -/

/-- The mask of a range is all ones, at least the range, and the least such value; the doubling-shift construction gives
it at every power-of-two width that holds the range (R152); and each attempt accepts more than half of the masked values
(R166). -/
def Obligations.SmearIsLeastAllOnesMaskAndAcceptsOverHalf : Prop :=
  (∀ range, (∃ n, smear range = 2 ^ n - 1) ∧ range ≤ smear range ∧
    ∀ n, range ≤ 2 ^ n - 1 → smear range ≤ 2 ^ n - 1) ∧
  (∀ b range, range < 2 ^ 2 ^ b →
    (List.range b).foldl (fun mask s => mask ||| (mask >>> 2 ^ s)) range = smear range) ∧
  (∀ range, 1 ≤ range →
    smear range + 1 < 2 * ((List.range (smear range + 1)).filter fun m => decide (m ≤ range)).length)

/-- FILLB completes when its checks pass: output byte j is byte j mod 64 of the block at index idx(L) + j / 64, the
locale moves on by ceil(COUNT / 64), and nothing else changes (R155, R156). -/
def Obligations.FillbCompletesWithBlockBytes : Prop :=
  ∀ s k r, Ready s k r → s.dst.toNat + s.count.toNat ≤ s.outSize →
    s.locale.index + (s.count.toNat + 63) / 64 ≤ top →
    ∃ t, exec .fillb s = .next t ∧ t.err = .ok ∧ t.busy = false ∧
      t.locale.index = s.locale.index + (s.count.toNat + 63) / 64 ∧
      (∀ j < s.count.toNat,
        (byteView (s.blockAt k r (s.locale.index + j / 64)))[j % 64]? = some (t.byte (s.dst.toNat + j))) ∧
      OnlyFillChanges s t ∧ SameOutside s t s.dst.toNat s.count.toNat

/-- Once its other checks pass, FILLB makes exactly the locale change MOCK makes with N = COUNT, overflow included
(R157, R158). -/
def Obligations.FillbMovesLocaleAsMock : Prop :=
  ∀ s k r t u, Ready s k r → s.dst.toNat + s.count.toNat ≤ s.outSize → exec .fillb s = .next t →
    exec .mock { s with nLo := s.count, nHi := 0 } = .next u → t.err = u.err ∧ t.locale = u.locale

/-- One FILLB is two: splitting COUNT at a block boundary and resuming at the locale and the address reached gives the
same bytes, memory and locale (R140, the resumption of R155). -/
def Obligations.FillbSplitsAtBlockBoundaries : Prop :=
  ∀ s k r (c1 c2 dst2 : Word), Ready s k r → s.dst.toNat + s.count.toNat ≤ s.outSize →
    s.locale.index + (s.count.toNat + 63) / 64 ≤ top →
    c1.toNat % 64 = 0 → c1.toNat + c2.toNat = s.count.toNat → dst2.toNat = s.dst.toNat + c1.toNat →
    ∃ t t1 t2, exec .fillb s = .next t ∧ exec .fillb { s with count := c1 } = .next t1 ∧
      exec .fillb { t1 with count := c2, dst := dst2 } = .next t2 ∧
      t.err = .ok ∧ t1.err = .ok ∧ t2.err = .ok ∧ t2.mem = t.mem ∧ t2.locale = t.locale

/-- FILLI.8, FILLI.16, FILLI.32 and FILLI.64 complete when their checks pass and D draws hold COUNT accepted ones, the
last draw accepted: one 64-bit word a draw, elements in draw order, the locale on by ceil(D / 8) (R160 to R165). -/
def Obligations.FilliCompletesWithAcceptedDraws : Prop :=
  ∀ p ∈ narrowFills, ∀ s k r d, Ready s k r → 2 ≤ highBound p.2 s - lowBound p.2 s →
    s.dst.toNat + s.count.toNat * (p.2 / 8) ≤ s.outSize →
    DrawsFor (draw s k r) (rangeOf (lowBound p.2 s) (highBound p.2 s)) s.count.toNat d →
    s.locale.index + (d + 7) / 8 ≤ top →
    SamplingSucceeds p.1 s (draw s k r) (lowBound p.2 s) (rangeOf (lowBound p.2 s) (highBound p.2 s)) d 8 (p.2 / 8)

/-- FILLBIG completes when its checks pass and A attempts hold COUNT accepted ones, the last one accepted: one block an
attempt, 64-byte elements, the locale on by A (R171, R173, R175). -/
def Obligations.FillbigCompletesWithAcceptedBlocks : Prop :=
  ∀ s k r d, Ready s k r → 2 ≤ bigHigh s - bigLow s → BoundsInEnvelope s →
    s.dst.toNat + s.count.toNat * 64 ≤ s.outSize →
    DrawsFor (attempt s k r) (rangeOf (bigLow s) (bigHigh s)) s.count.toNat d →
    s.locale.index + d ≤ top →
    SamplingSucceeds .fillbig s (attempt s k r) (bigLow s) (rangeOf (bigLow s) (bigHigh s)) d 1 64

/-- A sampling fill whose draws in the whole remaining address space hold fewer accepted ones than COUNT ends with
LocaleOverflow, the locale and every register unchanged and the destination any value (R172, R176). -/
def Obligations.SamplingPastTopLeavesDestinationFree : Prop :=
  (∀ p ∈ narrowFills, ∀ s k r, Ready s k r → 2 ≤ highBound p.2 s - lowBound p.2 s →
    s.dst.toNat + s.count.toNat * (p.2 / 8) ≤ s.outSize →
    (accepted (draw s k r) (rangeOf (lowBound p.2 s) (highBound p.2 s)) (8 * (top - s.locale.index))).length <
      s.count.toNat →
    SamplingOverflows p.1 s (p.2 / 8)) ∧
  (∀ s k r, Ready s k r → 2 ≤ bigHigh s - bigLow s → BoundsInEnvelope s →
    s.dst.toNat + s.count.toNat * 64 ≤ s.outSize →
    (accepted (attempt s k r) (rangeOf (bigLow s) (bigHigh s)) (top - s.locale.index)).length < s.count.toNat →
    SamplingOverflows .fillbig s 64)

/-- Every value FILLI or FILLBIG writes on success lies in [minVal, maxVal) (R162, R173). -/
def Obligations.SampledValuesLieInTheInterval : Prop :=
  (∀ p ∈ narrowFills, ∀ s t, exec p.1 s = .next t → t.err = .ok → ∀ e < s.count.toNat,
    let v := (BitVec.ofNat p.2 (t.memRead (s.dst.toNat + e * (p.2 / 8)) (p.2 / 8))).toInt
    lowBound p.2 s ≤ v ∧ v < highBound p.2 s) ∧
  (∀ s t, exec .fillbig s = .next t → t.err = .ok → ∀ e < s.count.toNat,
    let v := (BitVec.ofNat 512 (t.memRead (s.dst.toNat + e * 64) 64)).toInt
    bigLow s ≤ v ∧ v < bigHigh s)

/-! ## The host's ports and reset (10_state, 20_memory, 70_reset_and_hazards) -/

/-- The register map: each register stands at the index of R21's table, an index holds the register whose index it is,
and no two registers share one (R21). -/
def Obligations.RegisterMapIsOneToOne : Prop :=
  (∀ r : Reg, Reg.atIndex r.index = some r) ∧ (∀ ri r, Reg.atIndex ri = some r → r.index = ri) ∧
  ([Reg.cmd, .status, .err, .rounds, .pebbleLo, .pebbleHi, .streamLo, .streamHi, .nLo, .nHi, .dst, .count].map
    fun r => r.index.toNat) = List.range 12 ∧
  (∀ i, (Reg.pos i).index.toNat = 0x0C + i.val) ∧ (∀ i, (Reg.key i).index.toNat = 0x10 + i.val) ∧
  (∀ i, (Reg.blk i).index.toNat = 0x20 + i.val) ∧ (∀ i, (Reg.sreg i).index.toNat = 0x30 + i.val) ∧
  (∀ i, (Reg.min i).index.toNat = 0x40 + i.val) ∧ (∀ i, (Reg.max i).index.toNat = 0x60 + i.val)

/-- A write to a read-write register while idle changes that register alone: it reads back the value written, and every
other register, the kernel included, reads as before (R24, R25, R29 to R31, R33, R34). -/
def Obligations.IdleWriteChangesOneRegister : Prop :=
  ∀ (s : State) (r : Reg) (v : Word), s.busy = false →
    r ≠ .cmd → r ≠ .status → r ≠ .err → (∀ i, r ≠ .key i) → (∀ i, r ≠ .blk i) →
    let t := hostWriteReg r.index v s
    t.readStored r = v ∧ (∀ q : Reg, q ≠ r → t.readStored q = s.readStored q) ∧ t.key = s.key ∧ t.mem = s.mem ∧
      t.busy = s.busy

/-- A KEY write while idle loads the word and sets its KEYMASK bit, and no other; a KEY read gives 0 (R26). -/
def Obligations.KeyWriteLoadsWordAndMaskBit : Prop :=
  ∀ (s : State) (i : Fin 8) (v : Word), s.busy = false →
    let t := hostWriteReg (0x10#8 + BitVec.ofNat 8 i.val) v s
    t.key[i] = some v ∧ (∀ j : Fin 8, j ≠ i → t.key[j] = s.key[j]) ∧
    (∀ j : Fin 8, t.keyMask.getLsbD j = (decide (j = i) || s.keyMask.getLsbD j)) ∧
    t = { s with key := t.key } ∧
    (∀ u : State, (hostReadReg (0x10#8 + BitVec.ofNat 8 i.val) u).got =
      .reg (0x10#8 + BitVec.ofNat 8 i.val) 0 :: u.got)

/-- Writes to unmapped indices, to STATUS, to ERR and to BLK are ignored; a read of an unmapped index gives 0 and
changes nothing (R22). -/
def Obligations.UnmappedAndReadOnlyAccessesHaveNoEffect : Prop :=
  (∀ (s : State) (ri : BitVec 8) (v : Word),
    Reg.atIndex ri = none ∨ ri = 0x01 ∨ ri = 0x02 ∨ (0x20#8 ≤ ri ∧ ri ≤ 0x2F#8) → hostWriteReg ri v s = s) ∧
  (∀ (s : State) (ri : BitVec 8), Reg.atIndex ri = none →
    hostReadReg ri s = { s with got := .reg ri 0 :: s.got }) ∧
  (∀ ri : BitVec 8, Reg.atIndex ri = none ↔
    (0x18#8 ≤ ri ∧ ri ≤ 0x1F#8) ∨ (0x51#8 ≤ ri ∧ ri ≤ 0x5F#8) ∨ 0x71#8 ≤ ri)

/-- A host read, of a register or of a byte of output memory, changes no register and no byte of memory, whether the core
is idle or BUSY: the host gets the data back, and at most a free value is used up (R43, R67). -/
def Obligations.ReadsChangeNoState : Prop :=
  (∀ (s : State) (ri : BitVec 8) (ms : List Move), s.moves = .readReg ri :: ms →
    ∃ v f, step s = .next { s with moves := ms, got := .reg ri v :: s.got, fresh := f }) ∧
  (∀ (s : State) (a : Nat) (ms : List Move), a < s.outSize → s.moves = .readMem a :: ms →
    ∃ b f, step s = .next { s with moves := ms, got := .mem a b :: s.got, fresh := f })

/-- What a register read gives: any value (a free word) of LOC, BLK or S while a command that may write it runs, and the
stored value otherwise, while an illegal word runs too; STATUS shows BUSY in bit 0 and KEYMASK in bits 15:8, and ERR the number of the last error kind
(R27, R28, R43, 60 R191). -/
def Obligations.ReadsWhileBusyFollowTheRunningCommand : Prop :=
  ∀ (s : State) (r : Reg),
    let loc := r ∈ [Reg.pebbleLo, .pebbleHi, .streamLo, .streamHi]
    let written (i : Instr) : Prop :=
      (loc ∧ i ≠ .blockraw ∧ ∀ a b c d, i ≠ .qround a b c d) ∨ ((∃ j, r = .blk j) ∧ (i = .block ∨ i = .blockraw)) ∨
        ((∃ j, r = .sreg j) ∧ ∃ a b c d, i = .qround a b c d)
    (∀ i, s.busy = true → decode s.cmd = .ok i → written i →
      (hostReadReg r.index s).got = .reg r.index (Config.freeWord s.fresh) :: s.got) ∧
    (∀ i, s.busy = true → decode s.cmd = .ok i → ¬ written i →
      (hostReadReg r.index s).got = .reg r.index (s.readStored r) :: s.got) ∧
    (∀ w, s.busy = true → decode s.cmd = .error w →
      (hostReadReg r.index s).got = .reg r.index (s.readStored r) :: s.got) ∧
    (s.busy = false → (hostReadReg r.index s).got = .reg r.index (s.readStored r) :: s.got) ∧
    (s.readStored .status).toNat = 256 * s.keyMask.toNat + s.busy.toNat ∧
    ([ErrorKind.ok, .invalidKernel, .invalidRounds, .invalidRange, .invalidWidth, .localeOverflow, .illegalCommand,
      .invalidBuffer].map fun e => (State.readStored { s with err := e } .err).toNat) = List.range 8

/-- The kernel can't be read through the port: two states that differ only in kernel words, with the same words loaded,
give the host the same data on every register read (R26, 60_exceptions R200). -/
def Obligations.KernelWordsAreUnreadable : Prop :=
  ∀ (s : State) (key' : Vector (Option Word) 8) (ri : BitVec 8),
    (State.keyMask { s with key := key' }) = s.keyMask →
    (hostReadReg ri { s with key := key' }).got = (hostReadReg ri s).got

/-- Outside a running fill's destination the output memory is plain memory: a byte written reads back, and every other
byte reads as before (20_memory R63, R70). -/
def Obligations.HostMemoryIsPlainOutsideTheDestination : Prop :=
  ∀ (s : State) (a : Nat) (b : Byte) (ms : List Move), a < s.outSize → s.inDest a = false →
    (s.moves = .writeMem a b :: ms →
      ∃ t, step s = .next t ∧ t.byte a = b ∧ (∀ x, x ≠ a → t.byte x = s.byte x) ∧
        t = { s with mem := t.mem, moves := ms }) ∧
    (s.moves = .readMem a :: ms → step s = .next { s with moves := ms, got := .mem a (s.byte a) :: s.got })

/-- Inside a running fill's destination the host races: a byte it reads is a free byte, and a byte it writes is a free
byte once the command has completed (20_memory R70). That this holds whatever the command's outcome is the model's
inference (log entry 9): R70 names no outcome, and R194 and R236 say that most errors leave the destination unchanged. -/
def Obligations.RacesInTheDestinationGiveAnyValue : Prop :=
  (∀ (s : State) (a : Nat) (ms : List Move), a < s.outSize → s.inDest a = true → s.moves = .readMem a :: ms →
    ∃ n f, step s = .next { s with moves := ms, got := .mem a (Config.freeByte n) :: s.got, fresh := f }) ∧
  (∀ (s : State) (a : Nat) (b : Byte) (ms : List Move), a < s.outSize → s.inDest a = true →
    s.moves = .writeMem a b :: ms →
    ∃ t, step s = .next t ∧ a ∈ t.raced ∧ (∀ x, x ∈ t.raced ↔ x = a ∨ x ∈ s.raced) ∧
      t = { s with raced := t.raced, moves := ms }) ∧
  (∀ s s' t a, CoreNext s s' → s.busy = true → step s = .next t → a ∈ s.raced → ∃ n, t.byte a = Config.freeByte n)

/-- Reset puts every register in its reset value and the core idle, keeps every byte outside a running fill's
destination, and makes each byte of that destination inside the output memory any value (70 R220, R222). -/
def Obligations.ResetRestoresEveryRegister : Prop :=
  ∀ (s : State) (ms : List Move), s.moves = .reset :: ms →
    ∃ t, step s = .next t ∧
      t = { State.reset with mem := t.mem, fresh := t.fresh, outSize := s.outSize, posOrder := s.posOrder,
                             got := s.got, moves := ms } ∧
      (∀ a, s.inDest a = false → t.byte a = s.byte a) ∧
      (∀ a, s.inDest a = true → a < s.outSize → ∃ n, t.byte a = Config.freeByte n)

/-- The state after reset: every register of R220's list at 0, the locale (0, 0), STATUS 0, no kernel word, the core
idle. -/
def Obligations.ResetValuesAreTheSpecs : Prop :=
  let s := State.reset
  (∀ r : Reg, s.readStored r = 0#32) ∧ s.locale = ⟨0, 0⟩ ∧ s.busy = false ∧ s.keyMask = 0#8 ∧ s.err = .ok ∧
    (∀ i : Fin 8, s.key[i] = none)

/-- The host's SETMIN of a value in [-2^543, 2^543 - 1], run on an idle core, loads exactly that bound and changes
nothing else (30_encoding R88, 10_state R34). -/
def Obligations.SetMinLoadsTheBound : Prop :=
  ∀ (s : State) (v : Int) (ms : List Move), s.busy = false → -2 ^ 543 ≤ v → v ≤ 2 ^ 543 - 1 →
    s.moves = setMin v ++ ms →
    ∃ t, Host.Core.run core 17 s = .next t ∧ wideBound t.minWords = v ∧
      t = { s with minWords := t.minWords, moves := ms }
end

