-- ==== Sys2Proof/Laws/Decode.lean ====
section
/-!
SUPPORT. The words of QROUND as numbers, and the fields of a word as numbers (spec/30_encoding.md R81).
-/

namespace Sys2Proof

/-- Two bit vectors put together, as a number. -/
theorem toNat_append_eq {m n : Nat} (x : BitVec m) (y : BitVec n) :
    (x ++ y).toNat = x.toNat * 2 ^ n + y.toNat := by
  rw [BitVec.toNat_append, Nat.shiftLeft_eq, mul_comm, ← Nat.two_pow_add_eq_or_of_lt y.isLt, mul_comm]

/-- The word of QROUND as a number. -/
theorem toNat_encode_qround (a b c d : BitVec 4) :
    (encode (.qround a b c d)).toNat =
      (((d.toNat * 2 ^ 4 + c.toNat) * 2 ^ 4 + b.toNat) * 2 ^ 4 + a.toNat) * 2 ^ 16 + 8 := by
  have h : (encode (.qround a b c d)).toNat = (d ++ c ++ b ++ a ++ 0x0008#16).toNat := rfl
  rw [h, toNat_append_eq, toNat_append_eq, toNat_append_eq, toNat_append_eq]
  rfl

/-- A 4-bit field of a word as a number. -/
theorem toNat_field (c : Word) (lo : Nat) : (c.extractLsb' lo 4).toNat = c.toNat / 2 ^ lo % 2 ^ 4 := by
  rw [BitVec.extractLsb'_toNat, Nat.shiftRight_eq_div_pow]

/-- Whether a word is QROUND's row's: its low 16 bits are 8 (30_encoding R83). -/
theorem holds_qround (c : Word) (f : Word → Instr) :
    (Row.mk 0x00000008#32 0x0000FFFF#32 f).holds c = decide (c.toNat % 2 ^ 16 = 8) := by
  have h : (c &&& 0x0000FFFF#32).toNat = c.toNat % 2 ^ 16 := by
    rw [BitVec.toNat_and]
    exact Nat.and_two_pow_sub_one_eq_mod c.toNat 16
  rw [Row.holds, beq_eq_decide]
  congr 1
  apply propext
  constructor
  · intro e
    rw [← h]
    exact congrArg BitVec.toNat e
  · intro e
    apply BitVec.eq_of_toNat_eq
    exact h.trans e

/-- Whether a word is a row's that fixes every bit: it is the row's word (30_encoding R83). -/
theorem holds_fixed (p c : Word) (f : Word → Instr) : (Row.mk p 0xFFFFFFFF#32 f).holds c = decide (c = p) := by
  have h : c &&& 0xFFFFFFFF#32 = c := BitVec.and_allOnes
  rw [Row.holds, beq_eq_decide]
  show decide (c &&& 0xFFFFFFFF#32 = p) = _
  rw [h]

/-- What the decoder answers once the encoding table has been searched. -/
def answer (c : Word) : Option Row → Except IllegalWord Instr
  | some q => .ok (q.build c)
  | none => .error (illegalWord c)

/-- The decoder searches the encoding table. -/
theorem decode_eq_answer (c : Word) : decode c = answer c (rows.find? fun q => q.holds c) := rfl

/-- One step down a list of rows: the row holds and is the one found, or the search goes on. -/
theorem answer_find?_cons (c : Word) (r : Row) (l : List Row) :
    answer c ((r :: l).find? fun q => q.holds c) =
      if r.holds c = true then .ok (r.build c) else answer c (l.find? fun q => q.holds c) := by
  rw [List.find?_cons]
  cases r.holds c <;> rfl

/-- The decoder as one chain of cases on the word, row by row (30_encoding R83, R84). -/
theorem decode_eq (c : Word) : decode c =
    if c = 0x001#32 then .ok .block else if c = 0x002#32 then .ok .blockraw else if c = 0x003#32 then .ok .skip
    else if c = 0x004#32 then .ok .mock else if c = 0x005#32 then .ok .fillb else if c = 0x006#32 then .ok .filli8
    else if c = 0x106#32 then .ok .filli16 else if c = 0x206#32 then .ok .filli32 else if c = 0x306#32 then .ok .filli64
    else if c = 0x007#32 then .ok .fillbig
    else if c.toNat % 2 ^ 16 = 8 then .ok (.qround (fieldQA c) (fieldQB c) (fieldQC c) (fieldQD c))
    else .error (illegalWord c) := by
  rw [decode_eq_answer, rows]
  simp only [answer_find?_cons, holds_fixed, holds_qround, decide_eq_true_eq, List.find?_nil]
  rfl

end Sys2Proof
end

