-- ==== Sys2Proof/Laws/State.lean ====
section
/-!
SUPPORT. What each named update of the state does to each field: one lemma a field, true by unfolding the update, so
that no later proof unfolds a record update.
-/

namespace Sys2Proof.Machine

variable (s : State)

/-! Completing a command changes ERR and BUSY alone (60_exceptions R192). -/

@[simp] theorem State.complete_cmd (e : ErrorKind) : (s.complete e).cmd = s.cmd := rfl
@[simp] theorem State.complete_busy (e : ErrorKind) : (s.complete e).busy = false := rfl
@[simp] theorem State.complete_err (e : ErrorKind) : (s.complete e).err = e := rfl
@[simp] theorem State.complete_rounds (e : ErrorKind) : (s.complete e).rounds = s.rounds := rfl
@[simp] theorem State.complete_pebbleLo (e : ErrorKind) : (s.complete e).pebbleLo = s.pebbleLo := rfl
@[simp] theorem State.complete_pebbleHi (e : ErrorKind) : (s.complete e).pebbleHi = s.pebbleHi := rfl
@[simp] theorem State.complete_streamLo (e : ErrorKind) : (s.complete e).streamLo = s.streamLo := rfl
@[simp] theorem State.complete_streamHi (e : ErrorKind) : (s.complete e).streamHi = s.streamHi := rfl
@[simp] theorem State.complete_nLo (e : ErrorKind) : (s.complete e).nLo = s.nLo := rfl
@[simp] theorem State.complete_nHi (e : ErrorKind) : (s.complete e).nHi = s.nHi := rfl
@[simp] theorem State.complete_dst (e : ErrorKind) : (s.complete e).dst = s.dst := rfl
@[simp] theorem State.complete_count (e : ErrorKind) : (s.complete e).count = s.count := rfl
@[simp] theorem State.complete_pos (e : ErrorKind) : (s.complete e).pos = s.pos := rfl
@[simp] theorem State.complete_key (e : ErrorKind) : (s.complete e).key = s.key := rfl
@[simp] theorem State.complete_blk (e : ErrorKind) : (s.complete e).blk = s.blk := rfl
@[simp] theorem State.complete_sreg (e : ErrorKind) : (s.complete e).sreg = s.sreg := rfl
@[simp] theorem State.complete_minWords (e : ErrorKind) : (s.complete e).minWords = s.minWords := rfl
@[simp] theorem State.complete_maxWords (e : ErrorKind) : (s.complete e).maxWords = s.maxWords := rfl
@[simp] theorem State.complete_mem (e : ErrorKind) : (s.complete e).mem = s.mem := rfl
@[simp] theorem State.complete_outSize (e : ErrorKind) : (s.complete e).outSize = s.outSize := rfl
@[simp] theorem State.complete_posOrder (e : ErrorKind) : (s.complete e).posOrder = s.posOrder := rfl
@[simp] theorem State.complete_raced (e : ErrorKind) : (s.complete e).raced = s.raced := rfl
@[simp] theorem State.complete_fresh (e : ErrorKind) : (s.complete e).fresh = s.fresh := rfl
@[simp] theorem State.complete_got (e : ErrorKind) : (s.complete e).got = s.got := rfl
@[simp] theorem State.complete_moves (e : ErrorKind) : (s.complete e).moves = s.moves := rfl

/-! Writing the locale changes the four locale registers alone (10_state R24). -/

@[simp] theorem State.setLocale_cmd (l : Locale) : (s.setLocale l).cmd = s.cmd := rfl
@[simp] theorem State.setLocale_busy (l : Locale) : (s.setLocale l).busy = s.busy := rfl
@[simp] theorem State.setLocale_err (l : Locale) : (s.setLocale l).err = s.err := rfl
@[simp] theorem State.setLocale_rounds (l : Locale) : (s.setLocale l).rounds = s.rounds := rfl
@[simp] theorem State.setLocale_pebbleLo (l : Locale) : (s.setLocale l).pebbleLo = low32 l.pebble := rfl
@[simp] theorem State.setLocale_pebbleHi (l : Locale) : (s.setLocale l).pebbleHi = high32 l.pebble := rfl
@[simp] theorem State.setLocale_streamLo (l : Locale) : (s.setLocale l).streamLo = low32 l.stream := rfl
@[simp] theorem State.setLocale_streamHi (l : Locale) : (s.setLocale l).streamHi = high32 l.stream := rfl
@[simp] theorem State.setLocale_nLo (l : Locale) : (s.setLocale l).nLo = s.nLo := rfl
@[simp] theorem State.setLocale_nHi (l : Locale) : (s.setLocale l).nHi = s.nHi := rfl
@[simp] theorem State.setLocale_dst (l : Locale) : (s.setLocale l).dst = s.dst := rfl
@[simp] theorem State.setLocale_count (l : Locale) : (s.setLocale l).count = s.count := rfl
@[simp] theorem State.setLocale_pos (l : Locale) : (s.setLocale l).pos = s.pos := rfl
@[simp] theorem State.setLocale_key (l : Locale) : (s.setLocale l).key = s.key := rfl
@[simp] theorem State.setLocale_blk (l : Locale) : (s.setLocale l).blk = s.blk := rfl
@[simp] theorem State.setLocale_sreg (l : Locale) : (s.setLocale l).sreg = s.sreg := rfl
@[simp] theorem State.setLocale_minWords (l : Locale) : (s.setLocale l).minWords = s.minWords := rfl
@[simp] theorem State.setLocale_maxWords (l : Locale) : (s.setLocale l).maxWords = s.maxWords := rfl
@[simp] theorem State.setLocale_mem (l : Locale) : (s.setLocale l).mem = s.mem := rfl
@[simp] theorem State.setLocale_outSize (l : Locale) : (s.setLocale l).outSize = s.outSize := rfl
@[simp] theorem State.setLocale_posOrder (l : Locale) : (s.setLocale l).posOrder = s.posOrder := rfl
@[simp] theorem State.setLocale_raced (l : Locale) : (s.setLocale l).raced = s.raced := rfl
@[simp] theorem State.setLocale_fresh (l : Locale) : (s.setLocale l).fresh = s.fresh := rfl
@[simp] theorem State.setLocale_got (l : Locale) : (s.setLocale l).got = s.got := rfl
@[simp] theorem State.setLocale_moves (l : Locale) : (s.setLocale l).moves = s.moves := rfl

/-! Settling races changes the output memory, the raced addresses and the free-value counter (20_memory R70). -/

@[simp] theorem State.settleRaces_cmd : (s.settleRaces).cmd = s.cmd := rfl
@[simp] theorem State.settleRaces_busy : (s.settleRaces).busy = s.busy := rfl
@[simp] theorem State.settleRaces_err : (s.settleRaces).err = s.err := rfl
@[simp] theorem State.settleRaces_rounds : (s.settleRaces).rounds = s.rounds := rfl
@[simp] theorem State.settleRaces_pebbleLo : (s.settleRaces).pebbleLo = s.pebbleLo := rfl
@[simp] theorem State.settleRaces_pebbleHi : (s.settleRaces).pebbleHi = s.pebbleHi := rfl
@[simp] theorem State.settleRaces_streamLo : (s.settleRaces).streamLo = s.streamLo := rfl
@[simp] theorem State.settleRaces_streamHi : (s.settleRaces).streamHi = s.streamHi := rfl
@[simp] theorem State.settleRaces_nLo : (s.settleRaces).nLo = s.nLo := rfl
@[simp] theorem State.settleRaces_nHi : (s.settleRaces).nHi = s.nHi := rfl
@[simp] theorem State.settleRaces_dst : (s.settleRaces).dst = s.dst := rfl
@[simp] theorem State.settleRaces_count : (s.settleRaces).count = s.count := rfl
@[simp] theorem State.settleRaces_pos : (s.settleRaces).pos = s.pos := rfl
@[simp] theorem State.settleRaces_key : (s.settleRaces).key = s.key := rfl
@[simp] theorem State.settleRaces_blk : (s.settleRaces).blk = s.blk := rfl
@[simp] theorem State.settleRaces_sreg : (s.settleRaces).sreg = s.sreg := rfl
@[simp] theorem State.settleRaces_minWords : (s.settleRaces).minWords = s.minWords := rfl
@[simp] theorem State.settleRaces_maxWords : (s.settleRaces).maxWords = s.maxWords := rfl
@[simp] theorem State.settleRaces_mem : (s.settleRaces).mem = s.mem.setFreeAt s.raced s.fresh := rfl
@[simp] theorem State.settleRaces_outSize : (s.settleRaces).outSize = s.outSize := rfl
@[simp] theorem State.settleRaces_posOrder : (s.settleRaces).posOrder = s.posOrder := rfl
@[simp] theorem State.settleRaces_raced : (s.settleRaces).raced = [] := rfl
@[simp] theorem State.settleRaces_fresh : (s.settleRaces).fresh = s.fresh + s.raced.length := rfl
@[simp] theorem State.settleRaces_got : (s.settleRaces).got = s.got := rfl
@[simp] theorem State.settleRaces_moves : (s.settleRaces).moves = s.moves := rfl

/-- A value put together from two halves, as a number. -/
theorem toNat_join32 (h l : Word) : (join32 h l).toNat = h.toNat * 2 ^ 32 + l.toNat := by
  have := BitVec.toNat_append (x := h) (y := l)
  rw [Nat.shiftLeft_eq, mul_comm, ← Nat.two_pow_add_eq_or_of_lt l.isLt, mul_comm] at this
  exact this

/-- The high half of a value, as a number. -/
theorem toNat_high32 (v : BitVec 64) : (high32 v).toNat = v.toNat / 2 ^ 32 := by
  have := v.isLt
  simp only [high32, BitVec.extractLsb'_toNat, Nat.shiftRight_eq_div_pow]
  omega

/-- The low half of a value, as a number. -/
theorem toNat_low32 (v : BitVec 64) : (low32 v).toNat = v.toNat % 2 ^ 32 := by
  simp [low32, BitVec.extractLsb'_toNat]

/-- The two halves of a 64-bit value put together again. -/
@[simp] theorem join32_halves (v : BitVec 64) : join32 (high32 v) (low32 v) = v := by
  apply BitVec.eq_of_toNat_eq
  rw [toNat_join32, toNat_high32, toNat_low32]
  omega

/-- The low half of two halves put together. -/
@[simp] theorem low32_join32 (h l : Word) : low32 (join32 h l) = l := by
  have := l.isLt
  apply BitVec.eq_of_toNat_eq
  rw [toNat_low32, toNat_join32]
  omega

/-- The high half of two halves put together. -/
@[simp] theorem high32_join32 (h l : Word) : high32 (join32 h l) = h := by
  have := l.isLt
  apply BitVec.eq_of_toNat_eq
  rw [toNat_high32, toNat_join32]
  omega

/-- The locale written is the locale read (10_state R24). -/
@[simp] theorem State.locale_setLocale (l : Locale) : (s.setLocale l).locale = l := by
  simp [State.locale]

/-- Completing a command leaves the locale alone. -/
@[simp] theorem State.locale_complete (e : ErrorKind) : (s.complete e).locale = s.locale := rfl

/-- Settling races leaves the locale alone. -/
@[simp] theorem State.locale_settleRaces : s.settleRaces.locale = s.locale := rfl

/-- With no raced address there is nothing to settle. -/
theorem State.settleRaces_of_nil (h : s.raced = []) : s.settleRaces = s := by
  cases s; cases h; rfl

end Sys2Proof.Machine
end

