-- ==== Sys2Proof/Laws/BlockCore.lean ====
section
/-!
SUPPORT. Small lemmas about the block transform and the views of a block (spec/40_block_core.md R101 to R113).
-/

namespace Sys2Proof.Machine

/-- The words of the initial state in order (40_block_core R101). -/
theorem toList_initialState (k : Vector Word 8) (p : Vector Word 4) :
    (initialState k p).toList = constants.toList ++ k.toList ++ p.toList := by
  have h : (constants ++ k).toList = constants.toList ++ k.toList := Vector.toList_append
  exact Vector.toList_append.trans (congrArg (· ++ p.toList) h)

/-- One word of the initial state (40_block_core R101). -/
theorem getElem_initialState (k : Vector Word 8) (p : Vector Word 4) (i : Nat) (h : i < 16) :
    (initialState k p)[i] = (constants.toList ++ k.toList ++ p.toList)[i]'(by simp; omega) := by
  rw [← Vector.getElem_toList (xs := initialState k p) (by simpa using h)]
  simp only [toList_initialState]

/-- What an addition step leaves in each word (40_block_core R103). -/
theorem getElem_addStep (x : Block) (i j k : Fin 16) : (addStep x i j)[k] = if i = k then x[i] + x[j] else x[k] := by
  simp [addStep, Vector.getElem_set, Fin.ext_iff]

/-- What an exclusive-or step leaves in each word (40_block_core R103). -/
theorem getElem_xorStep (x : Block) (i j k : Fin 16) :
    (xorStep x i j)[k] = if i = k then x[i] ^^^ x[j] else x[k] := by
  simp [xorStep, Vector.getElem_set, Fin.ext_iff]

/-- What a rotation step leaves in each word (40_block_core R103). -/
theorem getElem_rotStep (x : Block) (i k : Fin 16) (n : Nat) :
    (rotStep x i n)[k] = if i = k then rotl32 x[i] n else x[k] := by
  simp [rotStep, Vector.getElem_set, Fin.ext_iff]

/-- A list of words as one number is the sum of its words in base 2^32 (40_block_core R112). -/
theorem wordsToNat_eq_sum (n : Nat) (f : Fin n → Word) :
    wordsToNat (List.ofFn f) = ((List.finRange n).map fun i => (f i).toNat * 2 ^ (32 * i.val)).sum := by
  induction n with
  | zero => rfl
  | succ n ih =>
    have e : ∀ i : Fin n,
        (f i.succ).toNat * 2 ^ (32 * (i.val + 1)) = 2 ^ 32 * ((f i.succ).toNat * 2 ^ (32 * i.val)) := by
      intro i; rw [Nat.mul_add, pow_add, Nat.mul_one, Nat.mul_comm (2 ^ (32 * i.val)), Nat.mul_left_comm]
    rw [List.ofFn_succ, wordsToNat, ih, List.finRange_succ, List.map_cons, List.sum_cons, List.map_map,
      ← List.sum_map_mul_left]
    simp only [Function.comp_def, Fin.val_succ, e, Fin.val_zero, Nat.mul_zero, pow_zero, Nat.mul_one]

/-- Double-rounds in a row as an iterate (40_block_core R106). -/
theorem doubleRounds_eq_iterate (n : Nat) (x : Block) : doubleRounds n x = doubleRound^[n] x := by
  induction n generalizing x with
  | zero => rfl
  | succ n ih => rw [doubleRounds, ih]; rfl

/-- Four bytes of a word put together again (40_block_core R110, R113). -/
theorem join_extract (w : Word) :
    (w.extractLsb' 24 8 ++ w.extractLsb' 16 8 ++ w.extractLsb' 8 8 ++ w.extractLsb' 0 8 : BitVec 32) = w := by
  apply BitVec.eq_of_toNat_eq
  have := w.isLt
  simp only [toNat_append_eq, BitVec.extractLsb'_toNat, Nat.shiftRight_eq_div_pow]
  omega

/-- The bytes of a word put together from four (40_block_core R110, R113). -/
theorem wordBytes_join (b0 b1 b2 b3 : Byte) : wordBytes (b3 ++ b2 ++ b1 ++ b0) = [b0, b1, b2, b3] := by
  have := b0.isLt; have := b1.isLt; have := b2.isLt; have := b3.isLt
  unfold wordBytes
  congr 1 <;> [skip; congr 1 <;> [skip; congr 1 <;> [skip; congr 1]]] <;>
  · apply BitVec.eq_of_toNat_eq
    simp only [toNat_append_eq, BitVec.extractLsb'_toNat, Nat.shiftRight_eq_div_pow]
    omega

/-- The words of the bytes of words are those words (40_block_core R113). -/
theorem wordsOfBytes_flatMap (l : List Word) : wordsOfBytes (l.flatMap wordBytes) = l := by
  induction l with
  | nil => rfl
  | cons w l ih =>
    show wordsOfBytes (w.extractLsb' 0 8 :: w.extractLsb' 8 8 :: w.extractLsb' 16 8 :: w.extractLsb' 24 8 ::
      l.flatMap wordBytes) = _
    rw [wordsOfBytes, ih, join_extract]

/-- A positional sum over a list, one digit at a time. -/
theorem sum_zipIdx_cons {α : Type} (f : α → Nat) (b : Nat) (a : α) (l : List α) :
    (((a :: l).zipIdx).map fun p => f p.1 * b ^ p.2).sum = f a + b * ((l.zipIdx).map fun p => f p.1 * b ^ p.2).sum := by
  have h : ∀ (l : List α) (k : Nat), ((l.zipIdx k).map fun p => f p.1 * b ^ p.2).sum =
      b ^ k * ((l.zipIdx).map fun p => f p.1 * b ^ p.2).sum := by
    intro l
    induction l with
    | nil => simp
    | cons c l ih =>
      intro k
      rw [List.zipIdx_cons, List.map_cons, List.sum_cons, ih, List.zipIdx_cons, List.map_cons, List.sum_cons, ih (0 + 1)]
      simp only [pow_succ, pow_zero]
      ring
  rw [List.zipIdx_cons, List.map_cons, List.sum_cons, h]
  simp

end Sys2Proof.Machine
end

