-- ==== Sys2Proof/Laws/Locale.lean ====
section
/-!
SUPPORT. Small lemmas about the locale and its index (spec/41_locale.md R130, R134).
-/

namespace Sys2Proof.Machine

/-- The index of a locale is its stream and pebble in base 2^64, so it is below 2^128. -/
theorem Locale.index_lt (l : Locale) : l.index < 2 ^ 128 := by
  have := l.stream.isLt; have := l.pebble.isLt
  unfold Locale.index; omega

/-- The pebble of the locale at an index. -/
theorem Locale.toNat_pebble_ofIndex (i : Nat) : (Locale.ofIndex i).pebble.toNat = i % 2 ^ 64 := by
  simp [Locale.ofIndex]

/-- The stream of the locale at an index. -/
theorem Locale.toNat_stream_ofIndex (i : Nat) : (Locale.ofIndex i).stream.toNat = i / 2 ^ 64 % 2 ^ 64 := by
  simp [Locale.ofIndex, Nat.shiftRight_eq_div_pow]

/-- The index of a locale leads back to it (41_locale R130). -/
@[simp] theorem Locale.ofIndex_index (l : Locale) : Locale.ofIndex l.index = l := by
  obtain ⟨p, s⟩ := l
  have hp := p.isLt; have hs := s.isLt
  have e1 := Locale.toNat_pebble_ofIndex (Locale.index ⟨p, s⟩)
  have e2 := Locale.toNat_stream_ofIndex (Locale.index ⟨p, s⟩)
  simp only [Locale.index] at e1 e2
  have : Locale.ofIndex (Locale.index ⟨p, s⟩) =
      ⟨(Locale.ofIndex (Locale.index ⟨p, s⟩)).pebble, (Locale.ofIndex (Locale.index ⟨p, s⟩)).stream⟩ := rfl
  rw [this]
  congr <;> apply BitVec.eq_of_toNat_eq <;> simp only [Locale.index, e1, e2] <;> omega

/-- The locale at an index below 2^128 has that index (41_locale R130). -/
theorem Locale.index_ofIndex (i : Nat) (h : i < 2 ^ 128) : (Locale.ofIndex i).index = i := by
  rw [Locale.index, Locale.toNat_pebble_ofIndex, Locale.toNat_stream_ofIndex]
  omega

/-- Two locales of one index are the same locale. -/
theorem Locale.index_inj {l m : Locale} (h : l.index = m.index) : l = m := by
  rw [← Locale.ofIndex_index l, h, Locale.ofIndex_index]

/-- All that Skip can do: it gives the locale whose index is the sum, or the sum passes the last index and it gives
nothing (41_locale R132). -/
theorem Locale.skip_cases (l : Locale) (n : BitVec 64) :
    (l.index + n.toNat < 2 ^ 128 ∧ ∃ m, l.skip n = some m ∧ m.index = l.index + n.toNat) ∨
    (2 ^ 128 ≤ l.index + n.toNat ∧ l.skip n = none) := by
  obtain ⟨p, s⟩ := l
  have hp := p.isLt; have hs := s.isLt; have hn := n.isLt
  have e1 : (p + n).toNat = (p.toNat + n.toNat) % 2 ^ 64 := BitVec.toNat_add _ _
  unfold Locale.skip Locale.index
  simp only [BitVec.lt_def, BitVec.toNat_add]
  by_cases h : (p.toNat + n.toNat) % 2 ^ 64 < p.toNat
  · by_cases hs' : s = BitVec.allOnes 64
    · refine .inr ⟨?_, by rw [if_pos h, if_pos hs']⟩
      rw [hs']; simp only [BitVec.toNat_allOnes]; omega
    · have hlt : s.toNat ≠ 2 ^ 64 - 1 := by
        intro e; apply hs'; apply BitVec.eq_of_toNat_eq; rw [e, BitVec.toNat_allOnes]
      refine .inl ⟨by omega, ⟨p + n, s + 1⟩, by rw [if_pos h, if_neg hs'], ?_⟩
      have e2 : (s + 1#64).toNat = s.toNat + 1 := by
        rw [BitVec.toNat_add]; show (s.toNat + 1) % 2 ^ 64 = _; omega
      show 2 ^ 64 * (s + 1#64).toNat + (p + n).toNat = _
      rw [e1, e2]; omega
  · refine .inl ⟨by omega, ⟨p + n, s⟩, by rw [if_neg h], ?_⟩
    show 2 ^ 64 * s.toNat + (p + n).toNat = _
    rw [e1]; omega

/-- The operand N as a number (10_state R29). -/
theorem State.toNat_n (s : State) : s.n.toNat = s.nHi.toNat * 2 ^ 32 + s.nLo.toNat := toNat_join32 _ _

/-- Mock is Skip by the blocks its bytes need, the zero count included (41_locale R134). -/
theorem Locale.mock_eq_skip (l : Locale) (n : BitVec 64) :
    l.mock n = l.skip (BitVec.ofNat 64 (blocksFor n.toNat)) := by
  unfold Locale.mock
  split
  · rename_i h; subst h
    simp [blocksFor, Locale.skip]
  · rfl

end Sys2Proof.Machine
end

