-- ==== Sys2Proof/Laws/Memory.lean ====
section
/-!
SUPPORT. The laws of the output memory: what each operation reads as afterwards, that each keeps the canonical form, and
that none lists an address outside its bound (spec/20_memory.md R60, R62, R63).
-/

namespace Sys2Proof.Machine

/-! Reading after a write. -/

/-- A read at the address written gives the byte written. -/
@[simp] theorem Memory.find?_write_same (m : Memory) (a : Nat) (b : Byte) : (m.write a b).find? a = some b := by
  induction m with
  | nil => simp [Memory.write, Memory.find?]
  | cons c m ih =>
    obtain ⟨k, v⟩ := c
    by_cases h1 : a < k
    · simp [Memory.write, Memory.find?, h1]
    · by_cases h2 : a = k
      · simp [Memory.write, Memory.find?, h2]
      · simp [Memory.write, Memory.find?, h1, h2, ih, Ne.symm h2]

/-- A write leaves every other address alone. -/
theorem Memory.find?_write_ne (m : Memory) {a x : Nat} (b : Byte) (h : x ≠ a) :
    (m.write a b).find? x = m.find? x := by
  induction m with
  | nil => simp [Memory.write, Memory.find?, Ne.symm h]
  | cons c m ih =>
    obtain ⟨k, v⟩ := c
    by_cases h1 : a < k
    · simp [Memory.write, Memory.find?, h1, Ne.symm h]
    · by_cases h2 : a = k
      · subst h2
        simp [Memory.write, Memory.find?, Ne.symm h]
      · simp only [Memory.write, h1, h2, if_false, Memory.find?, ih]

/-- A run of bytes leaves every address outside it alone. -/
theorem Memory.find?_writeBytes_outside (bs : List Byte) (m : Memory) {a x : Nat} (h : x < a ∨ a + bs.length ≤ x) :
    (m.writeBytes a bs).find? x = m.find? x := by
  induction bs generalizing m a with
  | nil => rfl
  | cons b bs ih =>
    simp only [List.length_cons] at h
    rw [Memory.writeBytes, ih _ (by omega), Memory.find?_write_ne _ _ (by omega)]

/-- Byte `i` of a run is read back at its place. -/
theorem Memory.find?_writeBytes_inside (bs : List Byte) (m : Memory) (a i : Nat) (h : i < bs.length) :
    (m.writeBytes a bs).find? (a + i) = some bs[i] := by
  induction bs generalizing m a i with
  | nil => simp at h
  | cons b bs ih =>
    cases i with
    | zero =>
      rw [Memory.writeBytes, Nat.add_zero, Memory.find?_writeBytes_outside _ _ (Or.inl (by omega))]
      simp
    | succ i =>
      have := ih (m.write a b) (a + 1) i (by simpa using h)
      rw [Memory.writeBytes, show a + (i + 1) = a + 1 + i by omega, this]
      simp

@[simp] theorem littleEndian_length (n u : Nat) : (littleEndian n u).length = n := by
  induction n generalizing u with
  | zero => rfl
  | succ n ih => simp [littleEndian, ih]

/-- An integer store leaves every byte outside its `n` bytes alone. -/
theorem Memory.find?_writeInt_outside (m : Memory) {a n x : Nat} (v : Int) (h : x < a ∨ a + n ≤ x) :
    (m.writeInt a n v).find? x = m.find? x :=
  Memory.find?_writeBytes_outside _ _ (by simpa using h)

/-- A run of integers leaves every byte outside it alone. -/
theorem Memory.find?_writeInts_outside (ms : List Nat) (m : Memory) {a n x : Nat} (mn : Int)
    (h : x < a ∨ a + ms.length * n ≤ x) : (m.writeInts a n mn ms).find? x = m.find? x := by
  induction ms generalizing m a with
  | nil => rfl
  | cons v ms ih =>
    have e : (v :: ms).length * n = ms.length * n + n := by simp [Nat.succ_mul]
    rw [e] at h
    rw [Memory.writeInts, ih _ (by omega), Memory.find?_writeInt_outside _ _ (by omega)]

/-- Byte `j` of element `e` of a run of integers is byte `j` of that integer, least significant first. -/
theorem Memory.find?_writeInts_inside (ms : List Nat) (m : Memory) (a n : Nat) (mn : Int) (e j : Nat)
    (he : e < ms.length) (hj : j < n) :
    (m.writeInts a n mn ms).find? (a + e * n + j) =
      some ((littleEndian n (unsignedBits (8 * n) (mn + (ms[e] : Int))))[j]'(by simpa using hj)) := by
  induction ms generalizing m a e with
  | nil => simp at he
  | cons v ms ih =>
    cases e with
    | zero =>
      rw [Memory.writeInts, Memory.find?_writeInts_outside _ _ _ (.inl (by omega)), Nat.zero_mul, Nat.add_zero,
        Memory.writeInt, Memory.find?_writeBytes_inside _ _ _ _ (by simpa using hj)]
      rfl
    | succ e =>
      rw [Memory.writeInts, show a + (e + 1) * n + j = (a + n) + e * n + j by rw [Nat.succ_mul]; omega,
        ih _ _ _ (by simpa using he)]
      rfl

/-- A read of the bytes of a number gives that number's low bytes (20_memory R63). -/
theorem State.memRead_of_bytes (s : State) (n a u : Nat)
    (h : ∀ j, (hj : j < n) → s.byte (a + j) = (littleEndian n u)[j]'(by simpa using hj)) :
    s.memRead a n = u % 2 ^ (8 * n) := by
  induction n generalizing a u with
  | zero => simp [State.memRead, Nat.mod_one]
  | succ n ih =>
    have h0 := h 0 (by omega)
    have hr := ih (a + 1) (u / 256) (by
      intro j hj
      have := h (j + 1) (by omega)
      rw [show a + 1 + j = a + (j + 1) by omega, this]
      simp [littleEndian])
    rw [State.memRead, hr]
    rw [Nat.add_zero] at h0
    rw [h0]
    have e : ((littleEndian (n + 1) u)[0]'(by simp)).toNat = u % 256 := by simp [littleEndian]
    rw [e, show 8 * (n + 1) = 8 + 8 * n by omega, pow_add, Nat.mod_mul]
    rfl

/-- The unsigned value of a number fits in its bits (00_scope R11). -/
theorem unsignedBits_lt (n : Nat) (v : Int) : unsignedBits n v < 2 ^ n := by
  have h : (0 : Int) < 2 ^ n := by positivity
  have h3 := Int.emod_lt_of_pos v h
  have h4 := Int.emod_nonneg v (ne_of_gt h)
  unfold unsignedBits
  zify
  rw [Int.toNat_of_nonneg h4]
  exact h3

/-- Making bytes any value leaves every address outside the run alone. -/
theorem Memory.find?_setFree_outside (n : Nat) (m : Memory) {a x f : Nat} (h : x < a ∨ a + n ≤ x) :
    (m.setFree a n f).find? x = m.find? x := by
  induction n generalizing m a f with
  | zero => rfl
  | succ n ih => rw [Memory.setFree, ih _ (by omega), Memory.find?_write_ne _ _ (by omega)]

/-- Byte `i` of a run made any value is a free byte. -/
theorem Memory.find?_setFree_inside (n : Nat) (m : Memory) (a f i : Nat) (h : i < n) :
    (m.setFree a n f).find? (a + i) = some (Config.freeByte (f + i)) := by
  induction n generalizing m a f i with
  | zero => omega
  | succ n ih =>
    cases i with
    | zero => rw [Memory.setFree, Nat.add_zero, Memory.find?_setFree_outside _ _ (Or.inl (by omega))]; simp
    | succ i =>
      rw [Memory.setFree, show a + (i + 1) = a + 1 + i by omega, ih _ _ _ _ (by omega)]
      congr 2; omega

/-- Making listed addresses any value leaves every other address alone. -/
theorem Memory.find?_setFreeAt_outside (as : List Nat) (m : Memory) {x f : Nat} (h : x ∉ as) :
    (m.setFreeAt as f).find? x = m.find? x := by
  induction as generalizing m f with
  | nil => rfl
  | cons a as ih =>
    simp only [List.mem_cons, not_or] at h
    rw [Memory.setFreeAt, ih _ h.2, Memory.find?_write_ne _ _ h.1]

/-! The canonical form and the bound: one lemma for each operation, from the one for a write. -/

/-- A write lists no address but its own and those listed before. -/
theorem Memory.mem_write {m : Memory} {a : Nat} {b : Byte} {c : Host.Cell} (h : c ∈ m.write a b) :
    c = (a, b) ∨ c ∈ m := by
  induction m with
  | nil => simpa [Memory.write] using h
  | cons d m ih =>
    obtain ⟨k, v⟩ := d
    rw [Memory.write] at h
    split at h
    · simpa using h
    · split at h
      · simp at h; rcases h with h | h <;> simp [h]
      · simp at h
        rcases h with h | h
        · simp [h]
        · rcases ih h with h | h <;> simp [h]

/-- A write keeps the canonical form. -/
theorem Memory.wf_write {m : Memory} (h : m.wf) (a : Nat) (b : Byte) : (m.write a b).wf := by
  induction m with
  | nil => simp [Memory.write, Memory.wf]
  | cons d m ih =>
    obtain ⟨k, v⟩ := d
    have hm := (List.pairwise_cons.mp h).2
    have hk := (List.pairwise_cons.mp h).1
    rw [Memory.write]
    split
    · rename_i hlt
      refine List.pairwise_cons.mpr ⟨?_, h⟩
      intro c hc
      rcases List.mem_cons.mp hc with rfl | hc
      · exact hlt
      · exact lt_trans hlt (hk c hc)
    · split
      · rename_i h2
        subst h2
        exact List.pairwise_cons.mpr ⟨fun c hc => hk c hc, hm⟩
      · rename_i h1 h2
        refine List.pairwise_cons.mpr ⟨?_, ih hm⟩
        intro c hc
        rcases Memory.mem_write hc with rfl | hc
        · show k < a; omega
        · exact hk c hc

/-- The output memory at reset is in canonical form (20_memory R60). -/
theorem Memory.wf_reset : State.reset.mem.wf := List.Pairwise.nil

/-- The canonical form, with no address listed at or above a bound. -/
def Memory.Good (n : Nat) (m : Memory) : Prop := m.wf ∧ ∀ c ∈ m, c.1 < n

/-- A write below the bound keeps both. -/
theorem Memory.Good.write {n : Nat} {m : Memory} (h : m.Good n) {a : Nat} (b : Byte) (ha : a < n) :
    (m.write a b).Good n :=
  ⟨Memory.wf_write h.1 a b, fun c hc => by
    rcases Memory.mem_write hc with rfl | hc
    · exact ha
    · exact h.2 c hc⟩

/-- A run of bytes below the bound keeps both. -/
theorem Memory.Good.writeBytes {n : Nat} (bs : List Byte) {m : Memory} (h : m.Good n) {a : Nat}
    (ha : a + bs.length ≤ n) : (m.writeBytes a bs).Good n := by
  induction bs generalizing m a with
  | nil => exact h
  | cons b bs ih =>
    simp only [List.length_cons] at ha
    exact ih (h.write b (by omega)) (by omega)

/-- A run of integers below the bound keeps both. -/
theorem Memory.Good.writeInts {n : Nat} (ms : List Nat) {m : Memory} (h : m.Good n) {a k : Nat} (mn : Int)
    (ha : a + ms.length * k ≤ n) : (m.writeInts a k mn ms).Good n := by
  induction ms generalizing m a with
  | nil => exact h
  | cons v ms ih =>
    have e : (v :: ms).length * k = ms.length * k + k := by simp [Nat.succ_mul]
    rw [e] at ha
    exact ih (Memory.Good.writeBytes _ h (by simp; omega)) (by omega)

/-- Making bytes below the bound any value keeps both. -/
theorem Memory.Good.setFree {n : Nat} (k : Nat) {m : Memory} (h : m.Good n) {a : Nat} (f : Nat)
    (ha : a + k ≤ n ∨ k = 0) : (m.setFree a k f).Good n := by
  induction k generalizing m a f with
  | zero => exact h
  | succ k ih => exact ih (h.write _ (by omega)) _ (by omega)

/-- Making listed addresses below the bound any value keeps both. -/
theorem Memory.Good.setFreeAt {n : Nat} (as : List Nat) {m : Memory} (h : m.Good n) (f : Nat)
    (ha : ∀ a ∈ as, a < n) : (m.setFreeAt as f).Good n := by
  induction as generalizing m f with
  | nil => exact h
  | cons a as ih =>
    exact ih (h.write _ (ha a (by simp))) _ (fun x hx => ha x (by simp [hx]))

/-! The list of raced addresses. -/

/-- Inserting an address adds that address alone. -/
@[simp] theorem mem_insertAddress {a x : Nat} {l : List Nat} : x ∈ insertAddress a l ↔ x = a ∨ x ∈ l := by
  induction l with
  | nil => simp [insertAddress]
  | cons b l ih =>
    rw [insertAddress]
    split
    · simp
    · split
      · rename_i h; subst h; simp
      · simp [ih]; tauto

/-- Inserting an address keeps the list strictly rising. -/
theorem insertAddress_rising {a : Nat} {l : List Nat} (h : l.Pairwise (· < ·)) :
    (insertAddress a l).Pairwise (· < ·) := by
  induction l with
  | nil => simp [insertAddress]
  | cons b l ih =>
    have hl := (List.pairwise_cons.mp h).2
    have hb := (List.pairwise_cons.mp h).1
    rw [insertAddress]
    split
    · rename_i hlt
      refine List.pairwise_cons.mpr ⟨?_, h⟩
      intro c hc
      rcases List.mem_cons.mp hc with rfl | hc
      · exact hlt
      · exact lt_trans hlt (hb c hc)
    · split
      · exact h
      · refine List.pairwise_cons.mpr ⟨?_, ih hl⟩
        intro c hc
        rcases mem_insertAddress.mp hc with rfl | hc
        · omega
        · exact hb c hc

end Sys2Proof.Machine
end

