-- ==== Sys2Proof/Laws/Ops.lean ====
section
/-!
SUPPORT. What each shared operation and each meaning can do, said once: the outcomes it has and under which checks. Later
proofs cite these and don't unfold the meanings.
-/

namespace Sys2Proof.Machine

@[simp] theorem raise_eq (e : ErrorKind) (s : State) : raise e s = .next (s.complete e) := rfl

@[simp] theorem succeed_eq (s : State) : succeed s = .next (s.complete .ok) := rfl

/-- The kernel is `k` exactly when each KEY register holds its word of `k` (10_state R26). -/
theorem State.kernel?_eq_some {s : State} {k : Vector Word 8} :
    s.kernel? = some k ↔ ∀ i : Fin 8, s.key[i] = some k[i] := by
  constructor
  · intro h i
    unfold State.kernel? at h
    split at h
    · cases h
      fin_cases i <;> simpa
    · simp at h
  · intro h
    have h0 := h 0; have h1 := h 1; have h2 := h 2; have h3 := h 3
    have h4 := h 4; have h5 := h 5; have h6 := h 6; have h7 := h 7
    simp at h0 h1 h2 h3 h4 h5 h6 h7
    simp only [State.kernel?, h0, h1, h2, h3, h4, h5, h6, h7, Option.some.injEq]
    apply Vector.ext
    intro i hi
    interval_cases i <;> rfl

/-- The kernel is loaded exactly when every KEY register holds a word. -/
theorem State.kernel?_isSome {s : State} : s.kernel?.isSome = true ↔ ∀ i : Fin 8, s.key[i].isSome = true := by
  constructor
  · intro h i
    obtain ⟨k, hk⟩ := Option.isSome_iff_exists.mp h
    rw [State.kernel?_eq_some.mp hk i]; rfl
  · intro h
    have h' : ∀ i : Fin 8, ∃ w, s.key[i] = some w := fun i => Option.isSome_iff_exists.mp (h i)
    choose f hf using h'
    rw [Option.isSome_iff_exists]
    exact ⟨Vector.ofFn f, State.kernel?_eq_some.mpr fun i => by simp [hf]⟩

/-- KEYMASK bit `i` says whether KEYi holds a word (10_state R27). -/
theorem State.getLsbD_keyMask (s : State) (i : Fin 8) : s.keyMask.getLsbD i = s.key[i].isSome := by
  unfold State.keyMask
  generalize s.key = k
  generalize e0 : k[0].isSome = b0
  generalize e1 : k[1].isSome = b1
  generalize e2 : k[2].isSome = b2
  generalize e3 : k[3].isSome = b3
  generalize e4 : k[4].isSome = b4
  generalize e5 : k[5].isSome = b5
  generalize e6 : k[6].isSome = b6
  generalize e7 : k[7].isSome = b7
  fin_cases i <;> simp_all <;>
    (clear e0 e1 e2 e3 e4 e5 e6 e7; revert b0 b1 b2 b3 b4 b5 b6 b7; decide)

/-- The checks of a command that runs the transform end in one of three ways (42_sampling R150). -/
theorem validated_cases (s : State) (rest : Vector Word 8 → Nat → Outcome) :
    (s.kernel? = none ∧ validated s rest = raise .invalidKernel s) ∨
    (s.kernel?.isSome = true ∧ roundsValid s.roundCount = false ∧ validated s rest = raise .invalidRounds s) ∨
    ∃ k, s.kernel? = some k ∧ roundsValid s.roundCount = true ∧
      validated s rest = rest k s.roundCount.toNat := by
  unfold validated
  cases h : s.kernel? with
  | none => simp
  | some k => cases hr : roundsValid s.roundCount <;> simp

/-- With its checks passed, a command that runs the transform goes on with the kernel and the round count. -/
theorem validated_of_ready {s : State} {k : Vector Word 8} (hk : s.kernel? = some k)
    (hr : roundsValid s.roundCount = true) (rest : Vector Word 8 → Nat → Outcome) :
    validated s rest = rest k s.roundCount.toNat := by simp [validated, hk, hr]

/-! ## What each meaning can do -/

/-- BLOCK fails with nothing changed, or writes the block and the next locale (40_block_core R107). -/
theorem execBlock_cases (s : State) :
    (∃ e, (e = .invalidKernel ∨ e = .invalidRounds ∨ e = .localeOverflow) ∧ execBlock s = .next (s.complete e)) ∨
    ∃ k l, s.kernel? = some k ∧ s.locale.skip 1 = some l ∧
      execBlock s = .next (State.complete (State.setLocale
        { s with blk := s.blockAt k s.roundCount.toNat s.locale.index } l) .ok) := by
  unfold execBlock
  rcases validated_cases s _ with ⟨-, h⟩ | ⟨-, -, h⟩ | ⟨k, hk, -, h⟩
  · exact .inl ⟨_, .inl rfl, h⟩
  · exact .inl ⟨_, .inr (.inl rfl), h⟩
  · rw [h]
    cases hl : s.locale.skip 1 with
    | none => exact .inl ⟨_, .inr (.inr rfl), rfl⟩
    | some l => exact .inr ⟨k, l, hk, rfl, rfl⟩

/-- BLOCKRAW fails with nothing changed, or writes the block alone (40_block_core R108). -/
theorem execBlockraw_cases (s : State) :
    (∃ e, (e = .invalidKernel ∨ e = .invalidRounds) ∧ execBlockraw s = .next (s.complete e)) ∨
    ∃ k, s.kernel? = some k ∧
      execBlockraw s = .next (State.complete { s with blk := transform k s.pos s.roundCount.toNat } .ok) := by
  unfold execBlockraw
  rcases validated_cases s _ with ⟨-, h⟩ | ⟨-, -, h⟩ | ⟨k, hk, -, h⟩
  · exact .inl ⟨_, .inl rfl, h⟩
  · exact .inl ⟨_, .inr rfl, h⟩
  · exact .inr ⟨k, hk, h⟩

/-- An advance fails with nothing changed, or writes the locale alone (41_locale R137 to R139). -/
theorem advanceTo_cases (o : Option Locale) (s : State) :
    (o = none ∧ advanceTo o s = .next (s.complete .localeOverflow)) ∨
    ∃ l, o = some l ∧ advanceTo o s = .next ((s.setLocale l).complete .ok) := by
  cases o with
  | none => exact .inl ⟨rfl, rfl⟩
  | some l => exact .inr ⟨l, rfl, rfl⟩

/-- FILLB fails with nothing changed, or stores its bytes and moves the locale (42_sampling R155, R157). -/
theorem execFillb_cases (s : State) :
    (∃ e, (e = .invalidKernel ∨ e = .invalidRounds ∨ e = .invalidBuffer ∨ e = .localeOverflow) ∧
      execFillb s = .next (s.complete e)) ∨
    ∃ k, s.kernel? = some k ∧ s.dst.toNat + s.count.toNat * 1 ≤ s.outSize ∧
      s.locale.index + blocksFor s.count.toNat ≤ lastIndex ∧
      execFillb s = .next (State.complete (State.setLocale
        { s with mem := fillBlocks (s.blockAt k s.roundCount.toNat) (blocksFor s.count.toNat) s.locale.index
                          s.count.toNat s.dst.toNat s.mem }
        (Locale.ofIndex (s.locale.index + blocksFor s.count.toNat))) .ok) := by
  unfold execFillb
  rcases validated_cases s _ with ⟨-, h⟩ | ⟨-, -, h⟩ | ⟨k, hk, -, h⟩
  · exact .inl ⟨_, .inl rfl, h⟩
  · exact .inl ⟨_, .inr (.inl rfl), h⟩
  · rw [h]
    by_cases hd : s.dstFits 1 = true
    · by_cases ho : s.locale.index + blocksFor s.count.toNat > lastIndex
      · exact .inl ⟨.localeOverflow, by simp, by simp [hd, ho]⟩
      · exact .inr ⟨k, hk, by simpa [State.dstFits] using hd, by omega, by simp [hd, ho]⟩
    · exact .inl ⟨.invalidBuffer, by simp, by simp [hd]⟩

/-- The end of a sampling fill: a success that stores its values, or LocaleOverflow (42_sampling R172). -/
theorem storeSamples_cases (s : State) (n : Nat) (mn : Int) (o : Option (List Nat × Nat)) :
    (o = none ∧ storeSamples s n mn o = .next (State.complete
      { s with mem := s.mem.setFree s.dst.toNat (s.count.toNat * n) s.fresh
               fresh := s.fresh + s.count.toNat * n } .localeOverflow)) ∨
    ∃ ms i, o = some (ms, i) ∧ storeSamples s n mn o = .next (State.complete (State.setLocale
      { s with mem := s.mem.writeInts s.dst.toNat n mn ms } (Locale.ofIndex i)) .ok) := by
  cases o with
  | none => exact .inl ⟨rfl, rfl⟩
  | some p => exact .inr ⟨p.1, p.2, rfl, rfl⟩

/-- The range of a pair of bounds (42_sampling R153). -/
def rangeOfBounds (mn mx : Int) : Nat := (mx - mn - 1).toNat

/-- FILLI fails with nothing changed, or goes on to its sampling with its checks passed (42_sampling R161). -/
theorem fillInts_cases (w : Nat) (s : State) :
    (∃ e, (e = .invalidKernel ∨ e = .invalidRounds ∨ e = .invalidRange ∨ e = .invalidBuffer) ∧
      fillInts w s = .next (s.complete e)) ∨
    ∃ k, s.kernel? = some k ∧ 2 ≤ narrowBound w s.maxWords - narrowBound w s.minWords ∧
      s.dst.toNat + s.count.toNat * (w / 8) ≤ s.outSize ∧
      fillInts w s = storeSamples s (w / 8) (narrowBound w s.minWords)
        (sampleDraws (s.blockAt k s.roundCount.toNat)
          (smear (rangeOfBounds (narrowBound w s.minWords) (narrowBound w s.maxWords)))
          (rangeOfBounds (narrowBound w s.minWords) (narrowBound w s.maxWords))
          (lastIndex - s.locale.index) s.locale.index s.count.toNat) := by
  unfold fillInts
  rcases validated_cases s _ with ⟨-, h⟩ | ⟨-, -, h⟩ | ⟨k, hk, -, h⟩
  · exact .inl ⟨_, .inl rfl, h⟩
  · exact .inl ⟨_, .inr (.inl rfl), h⟩
  · rw [h]
    by_cases hr : narrowBound w s.maxWords - narrowBound w s.minWords < 2
    · exact .inl ⟨.invalidRange, by simp, by simp [hr]⟩
    · by_cases hd : s.dstFits (w / 8) = true
      · exact .inr ⟨k, hk, by omega, by simpa [State.dstFits] using hd, by simp [hr, hd, rangeOfBounds]⟩
      · exact .inl ⟨.invalidBuffer, by simp, by simp [hr, hd]⟩

/-- FILLBIG fails with nothing changed, or goes on to its sampling with its checks passed (42_sampling R171). -/
theorem execFillbig_cases (s : State) :
    (∃ e, (e = .invalidKernel ∨ e = .invalidRounds ∨ e = .invalidRange ∨ e = .invalidWidth ∨ e = .invalidBuffer) ∧
      execFillbig s = .next (s.complete e)) ∨
    ∃ k, s.kernel? = some k ∧ 2 ≤ wideBound s.maxWords - wideBound s.minWords ∧
      inEnvelope (wideBound s.minWords) = true ∧ inEnvelope (wideBound s.maxWords) = true ∧
      s.dst.toNat + s.count.toNat * 64 ≤ s.outSize ∧
      execFillbig s = storeSamples s 64 (wideBound s.minWords)
        (sampleBlocks (s.blockAt k s.roundCount.toNat)
          (smear (rangeOfBounds (wideBound s.minWords) (wideBound s.maxWords)))
          (rangeOfBounds (wideBound s.minWords) (wideBound s.maxWords))
          (lastIndex - s.locale.index) s.locale.index s.count.toNat) := by
  unfold execFillbig
  rcases validated_cases s _ with ⟨-, h⟩ | ⟨-, -, h⟩ | ⟨k, hk, -, h⟩
  · exact .inl ⟨_, .inl rfl, h⟩
  · exact .inl ⟨_, .inr (.inl rfl), h⟩
  · rw [h]
    by_cases hr : wideBound s.maxWords - wideBound s.minWords < 2
    · exact .inl ⟨.invalidRange, by simp, by simp [hr]⟩
    · by_cases he : (inEnvelope (wideBound s.minWords) && inEnvelope (wideBound s.maxWords)) = true
      · by_cases hd : s.dstFits 64 = true
        · have he' := Bool.and_eq_true_iff.mp he
          exact .inr ⟨k, hk, by omega, he'.1, he'.2, by simpa [State.dstFits] using hd,
            by simp [hr, he, hd, rangeOfBounds]⟩
        · exact .inl ⟨.invalidBuffer, by simp, by simp [hr, he, hd]⟩
      · exact .inl ⟨.invalidWidth, by simp, by simp [hr, he]⟩

end Sys2Proof.Machine
end

