-- ==== Sys2Proof/Laws/Sampling.lean ====
section
/-!
SUPPORT. What the sampling loops do (spec/42_sampling.md R160 to R176): how many values they give, that each is in range,
and how far the locale index moves.
-/

namespace Sys2Proof.Machine

/-- Going through a list of draws gives the accepted ones in order, at most as many as are needed, and what is still
needed is what they leave. -/
theorem acceptDraws_eq (mask range : Nat) (q : List (BitVec 64)) (need : Nat) :
    acceptDraws mask range q need =
      (((q.map fun d => d.toNat &&& mask).filter fun m => decide (m ≤ range)).take need,
        need - ((q.map fun d => d.toNat &&& mask).filter fun m => decide (m ≤ range)).length) := by
  induction q generalizing need with
  | nil => cases need <;> simp [acceptDraws]
  | cons d q ih =>
    cases need with
    | zero => simp [acceptDraws]
    | succ need =>
      by_cases h : d.toNat &&& mask ≤ range
      · simp [acceptDraws, h, ih, Nat.add_sub_add_right]
      · simp [acceptDraws, h, ih]

/-- A block's draws give values in range, and the values given and those still needed add up to what was needed. -/
theorem acceptDraws_spec (mask range : Nat) (q : List (BitVec 64)) (need : Nat) :
    (∀ m ∈ (acceptDraws mask range q need).1, m ≤ range) ∧
    (acceptDraws mask range q need).1.length + (acceptDraws mask range q need).2 = need := by
  rw [acceptDraws_eq]
  constructor
  · intro m hm
    have := List.mem_of_mem_take hm
    simpa using (List.mem_filter.mp this).2
  · simp only [List.length_take]
    omega

/-- FILLI's loop, when it succeeds: as many values as needed, each in range, and an index that has moved on by at most
the blocks left. -/
theorem sampleDraws_spec {block : Nat → Block} {mask range : Nat} {left i need : Nat} {ms : List Nat} {j : Nat}
    (h : sampleDraws block mask range left i need = some (ms, j)) :
    ms.length = need ∧ (∀ m ∈ ms, m ≤ range) ∧ i ≤ j ∧ j ≤ i + left := by
  induction left generalizing i need ms with
  | zero =>
    cases need with
    | zero => simp [sampleDraws] at h; obtain ⟨rfl, rfl⟩ := h; simp
    | succ need => simp [sampleDraws] at h
  | succ left ih =>
    cases need with
    | zero => simp [sampleDraws] at h; obtain ⟨rfl, rfl⟩ := h; simp
    | succ need =>
      rw [sampleDraws] at h
      have ha := acceptDraws_spec mask range (u64View (block i)).toList (need + 1)
      revert h ha
      generalize acceptDraws mask range (u64View (block i)).toList (need + 1) = p
      obtain ⟨as, n⟩ := p
      rintro h ⟨h1, h2⟩
      dsimp only at h h1 h2
      split at h
      · simp at h
      · rename_i ms' j' hs
        simp only [Option.some.injEq, Prod.mk.injEq] at h
        obtain ⟨rfl, rfl⟩ := h
        obtain ⟨h3, h4, h5, h6⟩ := ih hs
        refine ⟨by simp; omega, ?_, by omega, by omega⟩
        intro m hm
        rcases List.mem_append.mp hm with hm | hm
        · exact h1 m hm
        · exact h4 m hm

/-- FILLBIG's loop, when it succeeds: as many values as needed, each in range, and an index that has moved on by at most
the blocks left. -/
theorem sampleBlocks_spec {block : Nat → Block} {mask range : Nat} {left i need : Nat} {ms : List Nat} {j : Nat}
    (h : sampleBlocks block mask range left i need = some (ms, j)) :
    ms.length = need ∧ (∀ m ∈ ms, m ≤ range) ∧ i ≤ j ∧ j ≤ i + left := by
  induction left generalizing i need ms with
  | zero =>
    cases need with
    | zero => simp [sampleBlocks] at h; obtain ⟨rfl, rfl⟩ := h; simp
    | succ need => simp [sampleBlocks] at h
  | succ left ih =>
    cases need with
    | zero => simp [sampleBlocks] at h; obtain ⟨rfl, rfl⟩ := h; simp
    | succ need =>
      rw [sampleBlocks] at h
      split at h
      · rename_i hm
        split at h
        · simp at h
        · rename_i ms' j' hs
          simp only [Option.some.injEq, Prod.mk.injEq] at h
          obtain ⟨rfl, rfl⟩ := h
          obtain ⟨h3, h4, h5, h6⟩ := ih hs
          refine ⟨by simp; omega, ?_, by omega, by omega⟩
          intro m hm'
          rcases List.mem_cons.mp hm' with rfl | hm'
          · exact hm
          · exact h4 m hm'
      · obtain ⟨h3, h4, h5, h6⟩ := ih h
        exact ⟨h3, h4, by omega, by omega⟩

/-- The byte view of a block has 64 bytes (40_block_core R110). -/
@[simp] theorem byteView_length (w : Block) : (byteView w).length = 64 := by
  simp [byteView, wordBytes, List.length_flatMap]

/-! ## The loops as draw streams: how many draws they make, and what they end in -/

/-- The values accepted among the first `d` draws of a stream of raw draws, in order (42_sampling R161). -/
def taken (mask range : Nat) (raw : Nat → Nat) (d : Nat) : List Nat :=
  ((List.range d).map fun n => raw n &&& mask).filter fun m => decide (m ≤ range)

/-- Draw `n` of FILLI's stream from block index `i` (42_sampling R160). -/
@[irreducible] def drawAt (block : Nat → Block) (i n : Nat) : Nat :=
  ((u64View (block (i + n / 8)))[n % 8]'(Nat.mod_lt _ (by decide))).toNat

/-- Attempt `n` of FILLBIG from block index `i` (42_sampling R171). -/
@[irreducible] def attemptAt (block : Nat → Block) (i n : Nat) : Nat := bigView (block (i + n))

/-- The values of a stream's first `a + b` draws are those of its first `a`, then those of the next `b`. -/
theorem taken_add (mask range : Nat) (raw : Nat → Nat) (a b : Nat) :
    taken mask range raw (a + b) = taken mask range raw a ++ taken mask range (fun n => raw (a + n)) b := by
  unfold taken
  rw [List.range_add, List.map_append, List.filter_append, List.map_map]
  rfl

/-- More draws give no fewer values. -/
theorem taken_length_mono (mask range : Nat) (raw : Nat → Nat) {a b : Nat} (h : a ≤ b) :
    (taken mask range raw a).length ≤ (taken mask range raw b).length := by
  obtain ⟨c, rfl⟩ := Nat.exists_eq_add_of_le h
  rw [taken_add, List.length_append]; omega

/-- Where the last of `d` draws is accepted, fewer draws give fewer values. -/
theorem taken_length_lt {mask range : Nat} {raw : Nat → Nat} {d e : Nat} (he : e < d)
    (h : raw (d - 1) &&& mask ≤ range) : (taken mask range raw e).length < (taken mask range raw d).length := by
  have h1 := taken_length_mono mask range raw (show e ≤ d - 1 by omega)
  have h2 : taken mask range raw (d - 1 + 1) = taken mask range raw (d - 1) ++ [raw (d - 1) &&& mask] := by
    rw [taken_add]; simp [taken, h]
  rw [show d - 1 + 1 = d by omega] at h2
  rw [h2, List.length_append, List.length_singleton]; omega

/-- The accepted values of one block's 64-bit view are those of eight draws from its index. -/
theorem filter_u64View (block : Nat → Block) (i mask range : Nat) :
    ((u64View (block i)).toList.map fun d => d.toNat &&& mask).filter (fun m => decide (m ≤ range)) =
      taken mask range (drawAt block i) 8 := by
  have h : (u64View (block i)).toList.map (fun d => d.toNat &&& mask) =
      (List.range 8).map fun n => drawAt block i n &&& mask := by
    apply List.ext_getElem
    · simp
    · intro n h1 h2
      simp at h2
      have e1 : n / 8 = 0 := by omega
      have e2 : n % 8 = n := by omega
      simp [drawAt, e1, e2]
  rw [h]; rfl

/-- FILLI's stream after eight draws is the stream from the next block. -/
theorem drawAt_shift (block : Nat → Block) (i n : Nat) : drawAt block i (8 + n) = drawAt block (i + 1) n := by
  unfold drawAt
  have e1 : i + (8 + n) / 8 = i + 1 + n / 8 := by omega
  have e2 : (8 + n) % 8 = n % 8 := by omega
  simp only [e1, e2]

/-- FILLI's values from eight draws and more are those of one block and then those from the next block. -/
theorem taken_drawAt (block : Nat → Block) (mask range i d : Nat) :
    taken mask range (drawAt block i) (8 + d) =
      taken mask range (drawAt block i) 8 ++ taken mask range (drawAt block (i + 1)) d := by
  rw [taken_add]
  congr 2
  funext n
  exact drawAt_shift _ _ _

/-- FILLBIG's values from one attempt and more are those of one block and then those from the next block. -/
theorem taken_attemptAt (block : Nat → Block) (mask range i d : Nat) :
    taken mask range (attemptAt block i) (1 + d) =
      taken mask range (attemptAt block i) 1 ++ taken mask range (attemptAt block (i + 1)) d := by
  rw [taken_add]
  congr 2
  funext n
  unfold attemptAt
  congr 2
  omega

/-- FILLI's loop succeeds where `d` draws hold the values needed, the last draw is one of them, and the blocks they take
are left: it gives those values, and the index after `ceil(d / 8)` blocks (42_sampling R160, R165). -/
theorem sampleDraws_some (block : Nat → Block) (mask range left i need d : Nat)
    (hl : (taken mask range (drawAt block i) d).length = need)
    (hd : d = 0 ∨ drawAt block i (d - 1) &&& mask ≤ range) (hb : (d + 7) / 8 ≤ left) :
    sampleDraws block mask range left i need = some (taken mask range (drawAt block i) d, i + (d + 7) / 8) := by
  induction left generalizing i need d with
  | zero =>
    obtain rfl : d = 0 := by omega
    obtain rfl : need = 0 := by simpa [taken] using hl.symm
    simp [sampleDraws, taken]
  | succ left ih =>
    rcases Nat.eq_zero_or_pos d with rfl | hpos
    · obtain rfl : need = 0 := by simpa [taken] using hl.symm
      simp [sampleDraws, taken]
    · have hd := hd.resolve_left (by omega)
      have h0 := taken_length_lt (e := 0) hpos hd
      rw [hl] at h0
      obtain ⟨n, rfl⟩ : ∃ n, need = n + 1 := ⟨need - 1, by omega⟩
      rw [sampleDraws, acceptDraws_eq, filter_u64View]
      dsimp only
      by_cases h8 : d ≤ 8
      · have e := taken_add mask range (drawAt block i) d (8 - d)
        rw [show d + (8 - d) = 8 by omega] at e
        have e1 : List.take (n + 1) (taken mask range (drawAt block i) 8) = taken mask range (drawAt block i) d := by
          rw [e, ← hl, List.take_left']; rfl
        have e2 : n + 1 - (taken mask range (drawAt block i) 8).length = 0 := by
          rw [e, List.length_append]; omega
        have e3 : (d + 7) / 8 = 1 := by omega
        rw [e1, e2]
        simp [sampleDraws, e3]
      · have lt8 := taken_length_lt (show 8 < d by omega) hd
        rw [hl] at lt8
        have e := taken_drawAt block mask range i (d - 8)
        rw [show 8 + (d - 8) = d by omega] at e
        rw [List.take_of_length_le (by omega)]
        have hrec := ih (i + 1) (n + 1 - (taken mask range (drawAt block i) 8).length) (d - 8)
          (by rw [← hl, e, List.length_append]; omega)
          (.inr (by rw [← drawAt_shift, show 8 + (d - 8 - 1) = d - 1 by omega]; exact hd)) (by omega)
        rw [hrec]
        dsimp only
        rw [e]
        congr 2
        omega

/-- FILLI's loop fails where all the draws of the blocks left hold too few values (42_sampling R172, R176). -/
theorem sampleDraws_none (block : Nat → Block) (mask range left i need : Nat)
    (hl : (taken mask range (drawAt block i) (8 * left)).length < need) :
    sampleDraws block mask range left i need = none := by
  induction left generalizing i need with
  | zero =>
    obtain ⟨n, rfl⟩ : ∃ n, need = n + 1 := ⟨need - 1, by omega⟩
    rw [sampleDraws]
  | succ left ih =>
    obtain ⟨n, rfl⟩ : ∃ n, need = n + 1 := ⟨need - 1, by omega⟩
    rw [show 8 * (left + 1) = 8 + 8 * left by omega, taken_drawAt, List.length_append] at hl
    rw [sampleDraws, acceptDraws_eq, filter_u64View]
    dsimp only
    rw [ih _ _ (by omega)]

/-- FILLBIG's loop succeeds where `d` attempts hold the values needed, the last attempt is one of them, and the blocks
they take are left: it gives those values, and the index after `d` blocks (42_sampling R171, R175). -/
theorem sampleBlocks_some (block : Nat → Block) (mask range left i need d : Nat)
    (hl : (taken mask range (attemptAt block i) d).length = need)
    (hd : d = 0 ∨ attemptAt block i (d - 1) &&& mask ≤ range) (hb : d ≤ left) :
    sampleBlocks block mask range left i need = some (taken mask range (attemptAt block i) d, i + d) := by
  induction left generalizing i need d with
  | zero =>
    obtain rfl : d = 0 := by omega
    obtain rfl : need = 0 := by simpa [taken] using hl.symm
    simp [sampleBlocks, taken]
  | succ left ih =>
    rcases Nat.eq_zero_or_pos d with rfl | hpos
    · obtain rfl : need = 0 := by simpa [taken] using hl.symm
      simp [sampleBlocks, taken]
    · have hd := hd.resolve_left (by omega)
      have h0 := taken_length_lt (e := 0) hpos hd
      rw [hl] at h0
      obtain ⟨n, rfl⟩ : ∃ n, need = n + 1 := ⟨need - 1, by omega⟩
      have e := taken_attemptAt block mask range i (d - 1)
      rw [show 1 + (d - 1) = d by omega] at e
      have hd' : d - 1 = 0 ∨ attemptAt block (i + 1) (d - 1 - 1) &&& mask ≤ range := by
        rcases Nat.eq_zero_or_pos (d - 1) with h | h
        · exact .inl h
        · right
          have : attemptAt block (i + 1) (d - 1 - 1) = attemptAt block i (d - 1) := by
            unfold attemptAt; congr 2; omega
          rw [this]; exact hd
      have e0 : attemptAt block i 0 = bigView (block i) := by unfold attemptAt; rfl
      rw [e, List.length_append] at hl
      rw [sampleBlocks, e]
      by_cases hm : bigView (block i) &&& mask ≤ range
      · have e1 : taken mask range (attemptAt block i) 1 = [bigView (block i) &&& mask] := by simp [taken, e0, hm]
        rw [e1, List.length_singleton] at hl
        rw [if_pos hm, ih (i + 1) n (d - 1) (by omega) hd' (by omega), e1]
        dsimp only
        congr 2; omega
      · have e1 : taken mask range (attemptAt block i) 1 = [] := by simp [taken, e0]; omega
        rw [e1, List.length_nil] at hl
        rw [if_neg hm, ih (i + 1) (n + 1) (d - 1) (by omega) hd' (by omega), e1]
        congr 2; omega

/-- FILLBIG's loop fails where all the blocks left hold too few values (42_sampling R172, R176). -/
theorem sampleBlocks_none (block : Nat → Block) (mask range left i need : Nat)
    (hl : (taken mask range (attemptAt block i) left).length < need) :
    sampleBlocks block mask range left i need = none := by
  induction left generalizing i need with
  | zero =>
    obtain ⟨n, rfl⟩ : ∃ n, need = n + 1 := ⟨need - 1, by omega⟩
    rw [sampleBlocks]
  | succ left ih =>
    obtain ⟨n, rfl⟩ : ∃ n, need = n + 1 := ⟨need - 1, by omega⟩
    rw [show left + 1 = 1 + left by omega, taken_attemptAt, List.length_append] at hl
    have e0 : attemptAt block i 0 = bigView (block i) := by unfold attemptAt; rfl
    rw [sampleBlocks]
    by_cases hm : bigView (block i) &&& mask ≤ range
    · have e1 : taken mask range (attemptAt block i) 1 = [bigView (block i) &&& mask] := by simp [taken, e0, hm]
      rw [e1, List.length_singleton] at hl
      rw [if_pos hm, ih _ _ (by omega)]
    · rw [if_neg hm]
      exact ih _ _ (by omega)

end Sys2Proof.Machine
end

