-- ==== Sys2Proof/Laws/Exec.lean ====
section
/-!
SUPPORT. What every command does alike: it completes, it leaves what it may not write alone, and it keeps the output
memory in canonical form (spec/10_state.md R35, R40, spec/20_memory.md R66).
-/

namespace Sys2Proof.Machine

/-- Storing blocks leaves every byte outside the `n` bytes alone. -/
theorem find?_fillBlocks_outside (block : Nat → Block) (b i n a : Nat) (m : Memory) (x : Nat)
    (h : x < a ∨ a + n ≤ x) : (fillBlocks block b i n a m).find? x = m.find? x := by
  induction b generalizing i n a m with
  | zero => rfl
  | succ b ih =>
    rw [fillBlocks]
    by_cases hx : x < a + 64 ∨ a + 64 + (n - 64) ≤ x
    · rw [ih _ _ _ _ hx, Memory.find?_writeBytes_outside]
      simp only [List.length_take, byteView_length]; omega
    · omega

/-- Storing no byte from any number of blocks changes nothing. -/
theorem fillBlocks_no_bytes (block : Nat → Block) (b i a : Nat) (m : Memory) :
    fillBlocks block b i 0 a m = m := by
  induction b generalizing i a with
  | zero => rfl
  | succ b ih => rw [fillBlocks]; simp only [List.take_zero, Memory.writeBytes, Nat.zero_sub]; exact ih _ _

/-- Storing blocks below the bound keeps the canonical form and the bound. -/
theorem Memory.Good.fillBlocks (block : Nat → Block) (b i n a : Nat) {m : Memory} {N : Nat} (hm : m.Good N)
    (h : a + n ≤ N) : (fillBlocks block b i n a m).Good N := by
  induction b generalizing i n a m with
  | zero => exact hm
  | succ b ih =>
    rw [Machine.fillBlocks]
    have h1 : (m.writeBytes a (List.take n (byteView (block i)))).Good N := by
      apply Memory.Good.writeBytes _ hm
      simp only [List.length_take, byteView_length]; omega
    by_cases hn : n ≤ 64
    · rw [show n - 64 = 0 by omega, fillBlocks_no_bytes]; exact h1
    · exact ih _ _ _ h1 (by omega)

/-- Byte `j` of the bytes stored is byte `j % 64` of block `j / 64` (42_sampling R155). -/
theorem find?_fillBlocks_inside (block : Nat → Block) (b i n a : Nat) (m : Memory) (j : Nat) (hj : j < n)
    (hb : n ≤ 64 * b) :
    (fillBlocks block b i n a m).find? (a + j) =
      some ((byteView (block (i + j / 64)))[j % 64]'(by rw [byteView_length]; exact Nat.mod_lt _ (by decide))) := by
  induction b generalizing i n a m j with
  | zero => omega
  | succ b ih =>
    rw [fillBlocks]
    by_cases h : j < 64
    · rw [find?_fillBlocks_outside _ _ _ _ _ _ _ (.inl (by omega)),
        Memory.find?_writeBytes_inside _ _ _ _ (by rw [List.length_take, byteView_length]; omega), List.getElem_take]
      have e1 : j / 64 = 0 := by omega
      have e2 : j % 64 = j := by omega
      simp only [e1, e2, Nat.add_zero]
    · have := ih (i + 1) (n - 64) (a + 64) (m.writeBytes a (List.take n (byteView (block i)))) (j - 64) (by omega)
        (by omega)
      rw [show a + 64 + (j - 64) = a + j by omega] at this
      rw [this]
      have e1 : i + 1 + (j - 64) / 64 = i + j / 64 := by omega
      have e2 : (j - 64) % 64 = j % 64 := by omega
      simp only [e1, e2]

/-- Storing `b + c` blocks is storing `b` whole ones and then `c`. -/
theorem fillBlocks_add (block : Nat → Block) (b c i n a : Nat) (m : Memory) (h : 64 * b ≤ n ∨ c = 0) :
    fillBlocks block (b + c) i n a m =
      fillBlocks block c (i + b) (n - 64 * b) (a + 64 * b) (fillBlocks block b i n a m) := by
  induction b generalizing i n a m with
  | zero => simp [fillBlocks]
  | succ b ih =>
    rw [show b + 1 + c = (b + c) + 1 by omega, fillBlocks, ih _ _ _ _ (by omega), fillBlocks]
    congr 1 <;> omega

/-- Whole blocks are stored alike however many more bytes are to come. -/
theorem fillBlocks_whole (block : Nat → Block) (b i n k a : Nat) (m : Memory) (h : 64 * b ≤ n) (h' : 64 * b ≤ k) :
    fillBlocks block b i n a m = fillBlocks block b i k a m := by
  induction b generalizing i n k a m with
  | zero => rfl
  | succ b ih =>
    rw [fillBlocks, fillBlocks, List.take_of_length_le (by rw [byteView_length]; omega),
      List.take_of_length_le (by rw [byteView_length]; omega)]
    exact ih _ _ _ _ _ (by omega) (by omega)

/-- What every command leaves alone, whatever its outcome: a command completes, BUSY goes to 0, and the registers that no
command writes keep their values (10_state R35, R40). -/
structure Completed (s t : State) : Prop where
  busy : t.busy = false
  cmd : t.cmd = s.cmd
  rounds : t.rounds = s.rounds
  nLo : t.nLo = s.nLo
  nHi : t.nHi = s.nHi
  dst : t.dst = s.dst
  count : t.count = s.count
  pos : t.pos = s.pos
  key : t.key = s.key
  minWords : t.minWords = s.minWords
  maxWords : t.maxWords = s.maxWords
  outSize : t.outSize = s.outSize
  posOrder : t.posOrder = s.posOrder
  raced : t.raced = s.raced
  got : t.got = s.got
  moves : t.moves = s.moves

/-- The shared end of an advance completes. -/
theorem advanceTo_completed (o : Option Locale) (s : State) : ∃ t, advanceTo o s = .next t ∧ Completed s t := by
  rcases advanceTo_cases o s with ⟨-, h⟩ | ⟨l, -, h⟩ <;> exact ⟨_, h, by constructor <;> rfl⟩

/-- The shared end of a sampling fill completes. -/
theorem storeSamples_completed (s : State) (n : Nat) (mn : Int) (o : Option (List Nat × Nat)) :
    ∃ t, storeSamples s n mn o = .next t ∧ Completed s t := by
  rcases storeSamples_cases s n mn o with ⟨-, h⟩ | ⟨_, _, -, h⟩ <;> exact ⟨_, h, by constructor <;> rfl⟩

/-- FILLI of each width completes. -/
theorem fillInts_completed (w : Nat) (s : State) : ∃ t, fillInts w s = .next t ∧ Completed s t := by
  rcases fillInts_cases w s with ⟨e, -, h⟩ | ⟨k, -, -, -, h⟩
  · exact ⟨_, h, by constructor <;> rfl⟩
  · rw [h]; exact storeSamples_completed _ _ _ _

/-- Every command completes in a next state (10_state R40). -/
theorem exec_completed (i : Instr) (s : State) : ∃ t, exec i s = .next t ∧ Completed s t := by
  cases i with
  | block => rcases execBlock_cases s with ⟨e, -, h⟩ | ⟨k, l, -, -, h⟩ <;> exact ⟨_, h, by constructor <;> rfl⟩
  | blockraw => rcases execBlockraw_cases s with ⟨e, -, h⟩ | ⟨k, -, h⟩ <;> exact ⟨_, h, by constructor <;> rfl⟩
  | skip => exact advanceTo_completed _ s
  | mock => exact advanceTo_completed _ s
  | fillb => rcases execFillb_cases s with ⟨e, -, h⟩ | ⟨k, -, -, -, h⟩ <;> exact ⟨_, h, by constructor <;> rfl⟩
  | filli8 => exact fillInts_completed 8 s
  | filli16 => exact fillInts_completed 16 s
  | filli32 => exact fillInts_completed 32 s
  | filli64 => exact fillInts_completed 64 s
  | fillbig =>
    rcases execFillbig_cases s with ⟨e, -, h⟩ | ⟨k, -, -, -, -, -, h⟩
    · exact ⟨_, h, by constructor <;> rfl⟩
    · show ∃ t, execFillbig s = _ ∧ _
      rw [h]; exact storeSamples_completed _ _ _ _
  | qround a b c d => exact ⟨_, rfl, by constructor <;> rfl⟩

/-- FILLB with its checks passed: what the next state holds, field by field (42_sampling R155). -/
theorem execFillb_of_ready {s : State} {k : Vector Word 8} (hk : s.kernel? = some k)
    (hr : roundsValid s.roundCount = true) (hd : s.dst.toNat + s.count.toNat ≤ s.outSize)
    (ho : s.locale.index + blocksFor s.count.toNat ≤ lastIndex) :
    ∃ t, execFillb s = .next t ∧ Completed s t ∧ t.err = .ok ∧ t.blk = s.blk ∧ t.sreg = s.sreg ∧ t.fresh = s.fresh ∧
      t.locale = Locale.ofIndex (s.locale.index + blocksFor s.count.toNat) ∧
      t.mem = fillBlocks (s.blockAt k s.roundCount.toNat) (blocksFor s.count.toNat) s.locale.index s.count.toNat
        s.dst.toNat s.mem := by
  have h4 : s.dstFits 1 = true := decide_eq_true (by omega)
  have h5 : ¬ s.locale.index + blocksFor s.count.toNat > lastIndex := not_lt.mpr ho
  rw [execFillb, validated_of_ready hk hr]
  simp only [h4, h5, Bool.not_true, Bool.false_eq_true, if_false]
  refine ⟨_, rfl, by constructor <;> rfl, rfl, rfl, rfl, rfl, ?_, rfl⟩
  simp

/-- The shared end of a sampling fill keeps the canonical form and the bound. -/
theorem Memory.Good.storeSamples {s t : State} {n : Nat} {mn : Int} {o : Option (List Nat × Nat)}
    (hg : s.mem.Good s.outSize) (hl : ∀ ms j, o = some (ms, j) → ms.length = s.count.toNat)
    (hd : s.dst.toNat + s.count.toNat * n ≤ s.outSize) (h : Machine.storeSamples s n mn o = .next t) :
    t.mem.Good s.outSize := by
  rcases storeSamples_cases s n mn o with ⟨-, h'⟩ | ⟨ms, j, ho, h'⟩ <;> rw [h'] at h <;> cases h
  · exact Memory.Good.setFree _ hg _ (.inl hd)
  · refine Memory.Good.writeInts _ hg _ ?_
    rw [hl ms j ho]; exact hd

/-- FILLI of each width keeps the canonical form and the bound. -/
theorem Memory.Good.fillInts {w : Nat} {s t : State} (hg : s.mem.Good s.outSize)
    (h : Machine.fillInts w s = .next t) : t.mem.Good s.outSize := by
  rcases fillInts_cases w s with ⟨e, -, h'⟩ | ⟨k, -, -, hd, h'⟩ <;> rw [h'] at h
  · cases h; exact hg
  · exact hg.storeSamples (fun ms j ho => (sampleDraws_spec ho).1) hd h

/-- Every command keeps the output memory in canonical form and inside OUT_SIZE (20_memory R66). -/
theorem Memory.Good.exec {i : Instr} {s t : State} (hg : s.mem.Good s.outSize) (h : Machine.exec i s = .next t) :
    t.mem.Good s.outSize := by
  have adv : ∀ o, advanceTo o s = .next t → t.mem = s.mem := by
    intro o h
    rcases advanceTo_cases o s with ⟨-, h'⟩ | ⟨l, -, h'⟩ <;> rw [h'] at h <;> cases h <;> rfl
  cases i with
  | block =>
    rcases execBlock_cases s with ⟨e, -, h'⟩ | ⟨k, l, -, -, h'⟩ <;> simp only [Machine.exec] at h <;> rw [h'] at h <;>
      cases h <;> exact hg
  | blockraw =>
    rcases execBlockraw_cases s with ⟨e, -, h'⟩ | ⟨k, -, h'⟩ <;> simp only [Machine.exec] at h <;> rw [h'] at h <;>
      cases h <;> exact hg
  | skip => rw [adv _ h]; exact hg
  | mock => rw [adv _ h]; exact hg
  | fillb =>
    rcases execFillb_cases s with ⟨e, -, h'⟩ | ⟨k, -, hd, -, h'⟩ <;> simp only [Machine.exec] at h <;> rw [h'] at h <;>
      cases h
    · exact hg
    · exact hg.fillBlocks _ _ _ _ _ (by omega)
  | filli8 => exact hg.fillInts (w := 8) h
  | filli16 => exact hg.fillInts (w := 16) h
  | filli32 => exact hg.fillInts (w := 32) h
  | filli64 => exact hg.fillInts (w := 64) h
  | fillbig =>
    rcases execFillbig_cases s with ⟨e, -, h'⟩ | ⟨k, -, -, -, -, hd, h'⟩ <;> simp only [Machine.exec] at h <;>
      rw [h'] at h
    · cases h; exact hg
    · exact hg.storeSamples (fun ms j ho => (sampleBlocks_spec ho).1) hd h
  | qround a b c d => cases h; exact hg

end Sys2Proof.Machine
end

