-- ==== Sys2Proof/Laws/PerInstr.lean ====
section
/-!
SUPPORT. The statements made of every instruction as syntax, one lemma a constructor.
-/

namespace Sys2Proof.Laws.Encodable

/-- The instruction's operation code, in the low four bits of its word, is one of the eight of the opcode map, and its
reserved field, bits 7:4, is 0 (30_encoding R81, R83). -/
def Statement (i : Instr) : Prop :=
  0x1#4 ≤ fieldOp (encode i) ∧ fieldOp (encode i) ≤ 0x8#4 ∧ (encode i).extractLsb' 4 4 = 0#4

theorem block : Statement .block := by unfold Statement; decide
theorem blockraw : Statement .blockraw := by unfold Statement; decide
theorem skip : Statement .skip := by unfold Statement; decide
theorem mock : Statement .mock := by unfold Statement; decide
theorem fillb : Statement .fillb := by unfold Statement; decide
theorem filli8 : Statement .filli8 := by unfold Statement; decide
theorem filli16 : Statement .filli16 := by unfold Statement; decide
theorem filli32 : Statement .filli32 := by unfold Statement; decide
theorem filli64 : Statement .filli64 := by unfold Statement; decide
theorem fillbig : Statement .fillbig := by unfold Statement; decide
theorem qround (a b c d : BitVec 4) : Statement (.qround a b c d) := by
  have h := toNat_encode_qround a b c d
  have hop : fieldOp (encode (.qround a b c d)) = 8#4 := by
    apply BitVec.eq_of_toNat_eq
    rw [fieldOp, toNat_field, h]
    simp; omega
  have hres : (encode (.qround a b c d)).extractLsb' 4 4 = 0#4 := by
    apply BitVec.eq_of_toNat_eq
    rw [toNat_field, h]
    simp; omega
  exact ⟨by rw [hop]; decide, by rw [hop]; decide, hres⟩

end Sys2Proof.Laws.Encodable
end

