-- ==== Sys2Proof/Laws/Step.lean ====
section
/-!
SUPPORT. What one step can do, said once: which move it makes and what that move answers (spec/10_state.md R40, R44).
-/

namespace Sys2Proof.Machine

/-- The core's move on an idle core changes nothing (70_reset_and_hazards R221). -/
theorem coreMove_of_idle {s : State} (h : s.busy = false) : coreMove s = .next s := by simp [coreMove, h]

/-- The core's move on a running legal command is its meaning, and then the settling of races. -/
theorem coreMove_of_ok {s : State} {i : Instr} (h : s.busy = true) (hd : decode s.cmd = .ok i) :
    coreMove s = settle (exec i s) := by simp [coreMove, h, hd]

/-- The core's move on a running illegal word is IllegalCommand, and then the settling of races. -/
theorem coreMove_of_error {s : State} {e : IllegalWord} (h : s.busy = true) (hd : decode s.cmd = .error e) :
    coreMove s = .next (s.complete .illegalCommand).settleRaces := by simp [coreMove, h, hd, settle]

/-- The core's move on a busy core completes the command, whichever it is (10_state R40). -/
theorem coreMove_of_busy {s : State} (hb : s.busy = true) :
    ∃ t, coreMove s = .next t.settleRaces ∧ Completed s t ∧ (s.mem.Good s.outSize → t.mem.Good s.outSize) := by
  cases hd : decode s.cmd with
  | ok i =>
    obtain ⟨t, h, hc⟩ := exec_completed i s
    exact ⟨t, by rw [coreMove_of_ok hb hd, h]; rfl, hc, fun hg => hg.exec h⟩
  | error e => exact ⟨_, coreMove_of_error hb hd, by constructor <;> rfl, fun hg => hg⟩

/-- A step with no move left is the core's move. -/
theorem step_of_nil {s : State} (h : s.moves = []) : step s = coreMove s := by simp [step, nextMove, h]

/-- A step with a move left is that move, on the state with it taken. -/
theorem step_of_cons {s : State} {m : Move} {ms : List Move} (h : s.moves = m :: ms) :
    step s = makeMove m { s with moves := ms } := by simp [step, nextMove, h]

/-- An idle core runs nothing. -/
theorem State.running_of_idle {s : State} (h : s.busy = false) : s.running = none := by simp [State.running, h]

/-- An idle core has no destination. -/
theorem State.inDest_of_idle {s : State} (h : s.busy = false) (a : Nat) : s.inDest a = false := by
  simp [State.inDest, State.runningSize, State.running_of_idle h]

/-- The running command and its destination depend on CMD, BUSY, DST and COUNT alone. -/
theorem State.inDest_congr {s t : State} (h1 : t.cmd = s.cmd) (h2 : t.busy = s.busy) (h3 : t.dst = s.dst)
    (h4 : t.count = s.count) (a : Nat) : t.inDest a = s.inDest a := by
  unfold State.inDest State.runningSize State.running
  rw [h1, h2, h3, h4]

/-- The moves to come have no part in the running fill's destination. -/
@[simp] theorem State.inDest_moves (s : State) (ms : List Move) (a : Nat) :
    State.inDest { s with moves := ms } a = s.inDest a := rfl

/-- A host memory write stops outside the output memory, races in the running fill's destination, and writes elsewhere
(20_memory R63, R70). -/
theorem hostWriteMem_cases (a : Nat) (b : Byte) (s : State) :
    (s.outSize ≤ a ∧ hostWriteMem a b s = .fault (.hostAddressAbsent a)) ∨
    (a < s.outSize ∧ s.inDest a = true ∧ hostWriteMem a b s = .next { s with raced := insertAddress a s.raced }) ∨
    (a < s.outSize ∧ s.inDest a = false ∧ hostWriteMem a b s = .next { s with mem := s.mem.write a b }) := by
  unfold hostWriteMem
  by_cases h : s.outSize ≤ a
  · simp [h]
  · cases hd : s.inDest a <;> simp [h] <;> omega

/-- A host memory read stops outside the output memory, and gives any value in the running fill's destination, the byte
elsewhere (20_memory R63, R70). -/
theorem hostReadMem_cases (a : Nat) (s : State) :
    (s.outSize ≤ a ∧ hostReadMem a s = .fault (.hostAddressAbsent a)) ∨
    (a < s.outSize ∧ s.inDest a = true ∧ hostReadMem a s =
      .next { s with got := .mem a (Config.freeByte s.fresh) :: s.got, fresh := s.fresh + 1 }) ∨
    (a < s.outSize ∧ s.inDest a = false ∧ hostReadMem a s = .next { s with got := .mem a (s.byte a) :: s.got }) := by
  unfold hostReadMem
  by_cases h : s.outSize ≤ a
  · simp [h]
  · cases hd : s.inDest a <;> simp [h] <;> omega

/-- A host register read only gives the host a word, and uses up a free value at most (10_state R43). -/
theorem hostReadReg_cases (ri : BitVec 8) (s : State) :
    ∃ v f, hostReadReg ri s = { s with got := .reg ri v :: s.got, fresh := f } := by
  unfold hostReadReg
  split
  · exact ⟨_, s.fresh, rfl⟩
  · split
    · exact ⟨_, _, rfl⟩
    · exact ⟨_, s.fresh, rfl⟩

/-- Bit 0 of STATUS is BUSY (10_state R27). -/
@[simp] theorem State.getLsbD_statusWord_zero (s : State) : s.statusWord.getLsbD 0 = s.busy := by
  unfold State.statusWord
  rw [BitVec.getLsbD_append]
  cases s.busy <;> rfl

/-- A read of STATUS gives the host its word, whatever runs (10_state R43). -/
theorem hostReadReg_status (s : State) :
    hostReadReg Reg.status.index s = { s with got := .reg Reg.status.index s.statusWord :: s.got } := by
  have hm : ∀ i, mayWrite i .status = false := fun i => by cases i <;> rfl
  have hu : s.unstable .status = false := by unfold State.unstable; split <;> simp [hm]
  have hi : Reg.atIndex Reg.status.index = some .status := rfl
  unfold hostReadReg
  simp only [hi, hu, Bool.false_eq_true, if_false]
  rfl

/-- WAIT ends with the read that finds BUSY = 0 (30_encoding R88). -/
theorem hostWait_of_idle {s : State} (h : s.busy = false) (n : Nat) :
    hostWait n s = { s with got := .reg Reg.status.index s.statusWord :: s.got } := by
  rw [hostWait, State.getLsbD_statusWord_zero, if_neg (by simp [h]), hostReadReg_status]

/-- WAIT goes on after a read that finds BUSY = 1 (30_encoding R88). -/
theorem hostWait_of_busy {s : State} (h : s.busy = true) (n : Nat) :
    hostWait n s =
      { s with got := .reg Reg.status.index s.statusWord :: s.got, moves := wait n ++ s.moves } := by
  rw [hostWait, State.getLsbD_statusWord_zero, if_pos h, hostReadReg_status]

/-- A turn of WAIT changes only what the host has got and the moves to come. -/
theorem hostWait_cases (n : Nat) (s : State) : ∃ g ms, hostWait n s = { s with got := g, moves := ms } := by
  cases h : s.busy with
  | true => exact ⟨_, _, by rw [hostWait_of_busy h, ← h]⟩
  | false => exact ⟨_, s.moves, by rw [hostWait_of_idle h, ← h]⟩

/-- The map gives back each register from its index (10_state R21). -/
@[simp] theorem Reg.atIndex_index (r : Reg) : Reg.atIndex r.index = some r := by
  cases r with
  | pos i | key i | blk i | sreg i | min i | max i => revert i; decide
  | _ => rfl

/-- A host register write is dropped while BUSY and ignored at an unmapped index; else it is the idle write of that
register (10_state R22, R42). -/
theorem hostWriteReg_cases (ri : BitVec 8) (v : Word) (s : State) :
    hostWriteReg ri v s = s ∨
    ∃ r, s.busy = false ∧ Reg.atIndex ri = some r ∧ hostWriteReg ri v s = s.writeIdle v r := by
  unfold hostWriteReg
  cases hb : s.busy with
  | true => simp
  | false =>
    cases hr : Reg.atIndex ri with
    | none => simp
    | some r => simp

/-- No steps of a run. -/
@[simp] theorem run_zero (s : State) : Host.Core.run core 0 s = .next s := rfl

/-- On any machine, a run whose first step answers a next state goes on from it. -/
theorem run_succ_of_step (M : Host.Core) {s t : M.State} (h : M.step s = .next t) (n : Nat) :
    M.run (n + 1) s = M.run n t := by
  simp only [Host.Core.run, h]

/-- On this machine, a run whose first step answers a next state goes on from it. -/
theorem run_succ {s t : State} (h : step s = .next t) (n : Nat) :
    Host.Core.run core (n + 1) s = Host.Core.run core n t :=
  run_succ_of_step core h n

end Sys2Proof.Machine
end

