-- ==== Sys2Proof/Tests/Slice0.lean ====
section
/-!
SUPPORT. Tests of the model, each expected value taken from spec/95_test_vectors.md or by hand from the rule it names, and
for each statement of Obligations.lean with hypotheses a state and operands that meet them all.
-/

namespace Sys2Proof.Tests

set_option Elab.async false

open Machine Claim

/-! ## Small states -/

/-- The state a command leaves. -/
def after (o : Outcome) : State :=
  match o with
  | .next s => s
  | _ => State.reset

/-- The RFC key of 95_test_vectors.md, "Common setup". -/
def rfcKey : Vector Word 8 :=
  #v[0x03020100, 0x07060504, 0x0b0a0908, 0x0f0e0d0c, 0x13121110, 0x17161514, 0x1b1a1918, 0x1f1e1d1c]

/-- Reset, with the RFC key loaded and a round count. -/
def loaded (rounds : Word) : State := { State.reset with key := rfcKey.map some, rounds := rounds }

/-- Reset, with seven of the eight kernel words loaded: KEYMASK = 0x7F. -/
def sevenWords (rounds : Word) : State := { loaded rounds with key := (rfcKey.map some).set 7 none }

/-- A state with its locale set. -/
def at' (p t : BitVec 64) (s : State) : State := s.setLocale ⟨p, t⟩

/-- A state with its bounds set, by the host's words (30_encoding R88). -/
def bounds (mn mx : Int) (s : State) : State :=
  { s with minWords := Vector.ofFn fun i => boundWord mn i.val, maxWords := Vector.ofFn fun i => boundWord mx i.val }

/-- A state with DST and COUNT set. -/
def dest (dst count : Word) (s : State) : State := { s with dst := dst, count := count }

/-- A state with N set. -/
def advance (n : BitVec 64) (s : State) : State := { s with nHi := high32 n, nLo := low32 n }

/-- The error and the locale a command leaves. -/
def errAndLocale (o : Outcome) : ErrorKind × Machine.Locale := ((after o).err, (after o).locale)

/-- `n` bytes of the output memory. -/
def bytesAt (s : State) (a n : Nat) : List Byte := (List.range n).map fun i => s.byte (a + i)

/-- The greatest 64-bit value. -/
def maxU64 : BitVec 64 := 0xFFFFFFFFFFFFFFFF

/-! ## Well-formedness: a refused word for each check of R84 (V21) -/

theorem test_legal_refuses_op_zero : legal 0x00000000 = false := by decide +kernel
theorem test_legal_refuses_unused_op : legal 0x00000009 = false ∧ legal 0x0000000F = false := by decide +kernel
theorem test_legal_refuses_reserved_on_block : legal 0x00000011 = false := by decide +kernel
theorem test_legal_refuses_wid_on_block : legal 0x00000101 = false := by decide +kernel
theorem test_legal_refuses_qa_on_block : legal 0x00010001 = false := by decide +kernel
theorem test_legal_refuses_reserved_on_filli : legal 0x00000406 = false := by decide +kernel
theorem test_legal_refuses_qd_on_filli : legal 0x80000006 = false := by decide +kernel
theorem test_legal_refuses_wid_on_qround : legal 0x00000108 = false := by decide +kernel
theorem test_legal_takes_filli64_and_qround : legal 0x00000306 = true ∧ legal 0xFFFF0008 = true := by decide +kernel
theorem test_wellformed_takes_every_index : (Instr.qround 15 15 15 15).wellFormed = true := by decide +kernel

/-! ## Decoding: words written out bit by bit from R81 and R83 -/

theorem test_decode_block : decode 0b0000_0000_0000_0000_0000_0000_0000_0001#32 = .ok .block := by decide +kernel
theorem test_decode_blockraw : decode 0b0000_0000_0000_0000_0000_0000_0000_0010#32 = .ok .blockraw := by decide +kernel
theorem test_decode_skip : decode 0b0000_0000_0000_0000_0000_0000_0000_0011#32 = .ok .skip := by decide +kernel
theorem test_decode_mock : decode 0b0000_0000_0000_0000_0000_0000_0000_0100#32 = .ok .mock := by decide +kernel
theorem test_decode_fillb : decode 0b0000_0000_0000_0000_0000_0000_0000_0101#32 = .ok .fillb := by decide +kernel
theorem test_decode_filli8 : decode 0b0000_0000_0000_0000_0000_0000_0000_0110#32 = .ok .filli8 := by decide +kernel
theorem test_decode_filli16 : decode 0b0000_0000_0000_0000_0000_0001_0000_0110#32 = .ok .filli16 := by decide +kernel
theorem test_decode_filli32 : decode 0b0000_0000_0000_0000_0000_0010_0000_0110#32 = .ok .filli32 := by decide +kernel
theorem test_decode_filli64 : decode 0b0000_0000_0000_0000_0000_0011_0000_0110#32 = .ok .filli64 := by decide +kernel
theorem test_decode_fillbig : decode 0b0000_0000_0000_0000_0000_0000_0000_0111#32 = .ok .fillbig := by decide +kernel
theorem test_decode_qround : decode 0b1101_1000_0111_0010_0000_0000_0000_1000#32 = .ok (.qround 2 7 8 13) := by
  decide +kernel
theorem test_decode_refuses_by_name :
    decode 0x0000000F = .error (.noSuchOperation 0xF) ∧ decode 0x00000011 = .error (.fieldNotZero 1) := by
  decide +kernel
theorem test_table_word : decodeTableWord 32 0xD8720008 = some (.qround 2 7 8 13) ∧
    decodeTableWord 8 0x03 = some .skip ∧ decodeTableWord 32 0x00000009 = none := by decide +kernel

/-! ## Block transform family -/

/-- V1: the quarter round's published vector. -/
theorem test_qround_v1 :
    (after (exec (.qround 0 1 2 3) { State.reset with
      sreg := (Vector.replicate 16 0).set 0 0x11111111 |>.set 1 0x01020304 |>.set 2 0x9b8d6f43 |>.set 3 0x01234567 })).sreg =
      ((Vector.replicate 16 0).set 0 0xea2a92f4 |>.set 1 0xcb1cf8ce |>.set 2 0x4581472e |>.set 3 0x5881c4bb) := by
  decide +kernel

/-- V20: equal indices, the steps in order on one word. -/
theorem test_qround_equal_indices :
    ((after (exec (.qround 0 0 1 1) { State.reset with sreg := Vector.ofFn fun i => BitVec.ofNat 32 i.val })).sreg[0],
      (after (exec (.qround 0 0 1 1) { State.reset with sreg := Vector.ofFn fun i => BitVec.ofNat 32 i.val })).sreg[1]) =
      (0x00004022#32, 0x04000080#32) := by
  decide +kernel

/-- V10: BLOCK at (0, 0) with 20 rounds. -/
theorem test_block_v10 :
    (after (exec .block (loaded 20))).blk =
      #v[0x7d2bfd39, 0x6a19c5d9, 0x7703bd8d, 0x494adcb8, 0x6fd8358a, 0xcc6adebc, 0x4c7dccb2, 0x9224ead8,
        0xe7cc232b, 0xab2360a2, 0x69ef0e3f, 0x647fc83a, 0xea358225, 0x2da3f7b1, 0xa06227c2, 0x0c415b48] := by
  decide +kernel

/-- V12: at the last locale nothing is done but ERR. -/
theorem test_block_at_top :
    after (exec .block (at' maxU64 maxU64 (loaded 20))) =
      { at' maxU64 maxU64 (loaded 20) with err := .localeOverflow } := by
  decide +kernel

/-- V3: the published block. -/
theorem test_blockraw_v3 :
    (after (exec .blockraw { loaded 20 with pos := #v[1, 0x09000000, 0x4a000000, 0] })).blk =
      #v[0xe4e7f110, 0x15593bd1, 0x1fdd0f50, 0xc47120a3, 0xc7f4d1c7, 0x0368c033, 0x9aaa2204, 0x4e6cd4c3,
        0x466482d2, 0x09aa9f07, 0x05d7c214, 0xa2028bd9, 0xd19c12b5, 0xb94e16de, 0xe883d0cb, 0x4e3c50a2] := by
  decide +kernel

/-- V13: two rounds are one double-round. -/
theorem test_blockraw_two_rounds :
    (after (exec .blockraw { loaded 2 with pos := #v[1, 0x09000000, 0x4a000000, 0] })).blk =
      #v[0x2ec3617c, 0xb8cb6822, 0x2ca7a0c7, 0x648e4d51, 0xc7b9ce22, 0x63341d7e, 0xd468bd69, 0x407a8d26,
        0x8f09e850, 0x95f3eb58, 0x0cbbd70d, 0x953063e6, 0x6b0d58a4, 0x7098471a, 0x2137f167, 0xf173888d] := by
  decide +kernel

/-- V5: the first bytes, the first 64-bit value and the top of the big integer of V3's block. -/
theorem test_views_v5 :
    let w : Block := #v[0xe4e7f110, 0x15593bd1, 0x1fdd0f50, 0xc47120a3, 0xc7f4d1c7, 0x0368c033, 0x9aaa2204, 0x4e6cd4c3,
      0x466482d2, 0x09aa9f07, 0x05d7c214, 0xa2028bd9, 0xd19c12b5, 0xb94e16de, 0xe883d0cb, 0x4e3c50a2]
    ((byteView w).take 8, (u64View w)[0], bigView w / 2 ^ 448) =
      ([0x10, 0xf1, 0xe7, 0xe4, 0xd1, 0x3b, 0x59, 0x15], 0x15593bd1e4e7f110#64, 0x4e3c50a2e883d0cb) := by
  decide +kernel

/-- R104: the words of a locale whose halves all differ, under both orders. -/
theorem test_position_words :
    positionWords .hiLo ⟨0x0000000100000002, 0x0000000300000004⟩ = #v[1, 2, 3, 4] ∧
    positionWords .loHi ⟨0x0000000100000002, 0x0000000300000004⟩ = #v[2, 1, 4, 3] := by
  decide +kernel

/-! ## Locale family -/

/-- V31: the pebble wraps and the stream increments. -/
theorem test_skip_wraps : errAndLocale (exec .skip (advance 10 (at' maxU64 0 State.reset))) = (.ok, ⟨9, 1⟩) := by
  decide +kernel

/-- 95 section 4: the sum passes the top by one. -/
theorem test_skip_overflows :
    errAndLocale (exec .skip (advance maxU64 (at' 1 maxU64 State.reset))) = (.localeOverflow, ⟨1, maxU64⟩) := by
  decide +kernel

/-- V33: a partial block counts whole. -/
theorem test_mock_rounds_up : errAndLocale (exec .mock (advance 641 State.reset)) = (.ok, ⟨11, 0⟩) := by
  decide +kernel

/-- 95 section 4: the greatest N, from one locale too far. -/
theorem test_mock_overflows :
    errAndLocale (exec .mock (advance maxU64 (at' (maxU64 - 2 ^ 58 + 1) maxU64 State.reset))) =
      (.localeOverflow, ⟨maxU64 - 2 ^ 58 + 1, maxU64⟩) := by
  decide +kernel

/-! ## Sampling family -/

/-- V51: 100 bytes from two blocks. -/
theorem test_fillb_v51 :
    bytesAt (after (exec .fillb (dest 0 100 (loaded 20)))) 0 100 =
      [0x39, 0xfd, 0x2b, 0x7d, 0xd9, 0xc5, 0x19, 0x6a, 0x8d, 0xbd, 0x03, 0x77, 0xb8, 0xdc, 0x4a, 0x49, 0x8a, 0x35, 0xd8, 0x6f,
        0xbc, 0xde, 0x6a, 0xcc, 0xb2, 0xcc, 0x7d, 0x4c, 0xd8, 0xea, 0x24, 0x92, 0x2b, 0x23, 0xcc, 0xe7, 0xa2, 0x60, 0x23, 0xab,
        0x3f, 0x0e, 0xef, 0x69, 0x3a, 0xc8, 0x7f, 0x64, 0x25, 0x82, 0x35, 0xea, 0xb1, 0xf7, 0xa3, 0x2d, 0xc2, 0x27, 0x62, 0xa0,
        0x48, 0x5b, 0x41, 0x0c, 0xd8, 0x38, 0xfb, 0x09, 0x53, 0x6e, 0x2e, 0x3a, 0x10, 0xe8, 0xf2, 0x3f, 0x48, 0x62, 0x73, 0xa6,
        0x9f, 0x42, 0xd8, 0xe6, 0x40, 0xd7, 0x81, 0xed, 0xe3, 0x84, 0x79, 0x3c, 0x34, 0xc3, 0x25, 0x64, 0xfc, 0x43, 0x61, 0xe5] := by
  decide +kernel

/-- V52: InvalidBuffer before LocaleOverflow, and for an empty fill past the end. -/
theorem test_fillb_checks :
    errAndLocale (exec .fillb (dest 0 70000 (at' maxU64 maxU64 (loaded 20)))) = (.invalidBuffer, ⟨maxU64, maxU64⟩) ∧
    errAndLocale (exec .fillb (dest 65537 0 (loaded 20))) = (.invalidBuffer, ⟨0, 0⟩) ∧
    errAndLocale (exec .fillb (dest 65536 0 (loaded 20))) = (.ok, ⟨0, 0⟩) := by
  decide +kernel

/-- V61: sixteen dice rolls, from 18 draws over three blocks. -/
theorem test_filli8_v61 :
    (bytesAt (after (exec .filli8 (dest 0 16 (bounds 1 7 (loaded 20))))) 0 16,
      errAndLocale (exec .filli8 (dest 0 16 (bounds 1 7 (loaded 20))))) =
      ([2, 6, 3, 3, 4, 6, 3, 1, 1, 4, 5, 1, 2, 4, 1, 3], (.ok, ⟨3, 0⟩)) := by
  decide +kernel

/-- V64: no block can be generated at the last locale. -/
theorem test_filli8_at_top :
    errAndLocale (exec .filli8 (dest 0 1 (bounds (-128) 127 (at' maxU64 maxU64 (loaded 20))))) =
      (.localeOverflow, ⟨maxU64, maxU64⟩) := by
  decide +kernel

/-- V63: an unaligned destination, a negative element, and rejected draws. -/
theorem test_filli16_v63 :
    (bytesAt (after (exec .filli16 (dest 3 3 (bounds (-5) 5 (loaded 20))))) 3 6,
      (after (exec .filli16 (dest 3 3 (bounds (-5) 5 (loaded 20))))).mem.map Prod.fst) =
      ([0x04, 0x00, 0xfd, 0xff, 0x00, 0x00], [3, 4, 5, 6, 7, 8]) := by
  decide +kernel

/-- V36: InvalidRange at 16 bits. -/
theorem test_filli16_range :
    errAndLocale (exec .filli16 (dest 0 1 (bounds (-32768) (-32767) (loaded 20)))) = (.invalidRange, ⟨0, 0⟩) := by
  decide +kernel

/-- V62: the whole 32-bit range but one value. -/
theorem test_filli32_v62 :
    bytesAt (after (exec .filli32 (dest 0 4 (bounds (-2 ^ 31) (2 ^ 31 - 1) (loaded 20))))) 0 16 =
      [0x39, 0xfd, 0x2b, 0xfd, 0x8d, 0xbd, 0x03, 0xf7, 0x8a, 0x35, 0xd8, 0xef, 0xb2, 0xcc, 0x7d, 0xcc] := by
  decide +kernel

/-- V36: InvalidRange at 32 bits, over InvalidBuffer (V65). -/
theorem test_filli32_range :
    errAndLocale (exec .filli32 (dest 70000 1 (bounds (2 ^ 31 - 1) (2 ^ 31 - 1) (loaded 20)))) =
      (.invalidRange, ⟨0, 0⟩) := by
  decide +kernel

/-- V62: the whole 64-bit range but one value. -/
theorem test_filli64_v62 :
    bytesAt (after (exec .filli64 (dest 0 4 (bounds (-2 ^ 63) (2 ^ 63 - 1) (loaded 20))))) 0 32 =
      [0x39, 0xfd, 0x2b, 0x7d, 0xd9, 0xc5, 0x19, 0xea, 0x8d, 0xbd, 0x03, 0x77, 0xb8, 0xdc, 0x4a, 0xc9, 0x8a, 0x35, 0xd8, 0x6f,
        0xbc, 0xde, 0x6a, 0x4c, 0xb2, 0xcc, 0x7d, 0x4c, 0xd8, 0xea, 0x24, 0x12] := by
  decide +kernel

/-- V65: eight bytes at 65529 do not fit. -/
theorem test_filli64_buffer :
    errAndLocale (exec .filli64 (dest 65529 1 (bounds 0 10 (loaded 20)))) = (.invalidBuffer, ⟨0, 0⟩) := by
  decide +kernel

/-- V73: one negative element of 64 bytes, both bounds at the edge of the envelope. -/
theorem test_fillbig_v73 :
    bytesAt (after (exec .fillbig (dest 0 1 (bounds (-2 ^ 511) (2 ^ 511 - 1) (loaded 20))))) 0 64 =
      [0x39, 0xfd, 0x2b, 0x7d, 0xd9, 0xc5, 0x19, 0x6a, 0x8d, 0xbd, 0x03, 0x77, 0xb8, 0xdc, 0x4a, 0x49, 0x8a, 0x35, 0xd8, 0x6f,
        0xbc, 0xde, 0x6a, 0xcc, 0xb2, 0xcc, 0x7d, 0x4c, 0xd8, 0xea, 0x24, 0x92, 0x2b, 0x23, 0xcc, 0xe7, 0xa2, 0x60, 0x23, 0xab,
        0x3f, 0x0e, 0xef, 0x69, 0x3a, 0xc8, 0x7f, 0x64, 0x25, 0x82, 0x35, 0xea, 0xb1, 0xf7, 0xa3, 0x2d, 0xc2, 0x27, 0x62, 0xa0,
        0x48, 0x5b, 0x41, 0x8c] := by
  decide +kernel

/-- V37 and V74: InvalidWidth just outside the envelope, over InvalidBuffer; InvalidRange before it (V36). -/
theorem test_fillbig_checks :
    errAndLocale (exec .fillbig (dest 65473 1 (bounds 0 (2 ^ 511) (loaded 20)))) = (.invalidWidth, ⟨0, 0⟩) ∧
    errAndLocale (exec .fillbig (dest 0 1 (bounds (-2 ^ 511 - 1) 0 (loaded 20)))) = (.invalidWidth, ⟨0, 0⟩) ∧
    errAndLocale (exec .fillbig (dest 0 1 (bounds (2 ^ 520) (2 ^ 520) (loaded 20)))) = (.invalidRange, ⟨0, 0⟩) := by
  decide +kernel

/-- V60: masks. -/
theorem test_smear_v60 : [1, 2, 3, 5, 8, 254, 255, 2 ^ 64 - 2, 2 ^ 512 - 2].map smear =
    [1, 3, 3, 7, 15, 255, 255, 2 ^ 64 - 1, 2 ^ 512 - 1] := by decide +kernel

/-- V65: only the low 8 bits of MIN0 and MAX0 count for FILLI.8. -/
theorem test_narrow_bound : narrowBound 8 ((Vector.replicate 17 0).set 0 0xFFFFFF05) = 5 ∧
    narrowBound 8 ((Vector.replicate 17 0).set 0 0x00000080) = -128 := by decide +kernel

/-! ## Checks, the step and the host's ports -/

/-- V12: KEYMASK = 0x7F comes before an odd round count; 0, 3, 0xFFFFFFFE and 0x80000000 are no round counts. -/
theorem test_kernel_then_rounds :
    (after (exec .blockraw (sevenWords 3))).err = .invalidKernel ∧
    [0, 3, 0xFFFFFFFE, 0x80000000].map (fun r => (after (exec .blockraw (loaded r))).err) =
      [.invalidRounds, .invalidRounds, .invalidRounds, .invalidRounds] := by
  decide +kernel

/-- V21: an illegal word changes ERR alone, and CMD keeps it (R85). -/
theorem test_step_illegal_word :
    after (step (State.reset.withFetchWord 32 0x00000009)) =
      { State.reset with cmd := 0x00000009, err := .illegalCommand } := by
  decide +kernel

/-- A word placed at reset is run by the very next step. -/
theorem test_step_runs_placed_word :
    after (step (State.withFetchWord (advance 10 (at' maxU64 0 State.reset)) 32 0x00000003)) =
      { advance 10 (at' 9 1 State.reset) with cmd := 0x00000003 } := by
  decide +kernel

/-- R27: STATUS with the core busy and KEY7 not loaded; R28: ERR. -/
theorem test_status_and_err_words :
    (State.statusWord { sevenWords 20 with busy := true }, State.errWord { State.reset with err := .invalidBuffer }) =
      (0x00007F01#32, 0x00000007#32) := by
  decide +kernel

/-- R42, R22: writes are dropped while BUSY, to STATUS and to unmapped indices. -/
theorem test_writes_without_effect :
    hostWriteReg 0x03 20 { State.reset with busy := true } = { State.reset with busy := true } ∧
    hostWriteReg 0x01 0xFFFFFFFF State.reset = State.reset ∧ hostWriteReg 0x51 7 State.reset = State.reset := by
  decide +kernel

/-- R26, R22: KEY7 and an unmapped index read 0. -/
theorem test_reads_of_zero :
    (hostReadReg 0x17 (hostReadReg 0x71 (loaded 20))).got = [.reg 0x17 0, .reg 0x71 0] := by
  decide +kernel

/-- R43: while a SKIP runs, PEBBLE_LO is a free word and N_LO is stored. -/
theorem test_reads_while_busy :
    (hostReadReg 0x08 (hostReadReg 0x04 { advance 7 State.reset with busy := true, cmd := 0x3, fresh := 5 })).got =
      [.reg 0x08 7, .reg 0x04 (Config.freeWord 5)] := by
  rfl

/-- R88: a WAIT whose read finds BUSY = 1 reads again, and lets the core complete first when its turns are used up. -/
theorem test_wait_goes_on :
    ((after (step { loaded 20 with busy := true, cmd := 0x3, moves := [.wait 1, .readReg 2] })).moves,
      (after (step { loaded 20 with busy := true, cmd := 0x3, moves := [.wait 0, .readReg 2] })).moves) =
      ([.wait 0, .readReg 2], [.core, .wait 0, .readReg 2]) := by
  decide +kernel

/-- R88: a WAIT whose read finds BUSY = 0 ends; P1's read of STATUS then. -/
theorem test_wait_ends :
    let s := after (step { loaded 20 with moves := [.wait 5, .readReg 2] })
    (s.moves, s.got) = ([.readReg 2], [.reg 0x01 0x0000FF00]) := by
  decide +kernel

/-- R88, P5: RUN QROUND 2, 7, 8, 13 writes 0xD8720008 to CMD and then waits. -/
theorem test_run_expands :
    Machine.run (.qround 2 7 8 13) 0 = [.writeReg 0x00 0xD8720008, .core, .wait 0] ∧
    Machine.run (.qround 2 7 8 13) 3 = [.writeReg 0x00 0xD8720008, .wait 2] := by
  decide +kernel

/-- R70: a host write inside a running FILLB's destination races; the byte next to it does not. -/
theorem test_race_in_destination :
    let s := { dest 16 8 (loaded 2) with busy := true, cmd := 0x5 }
    (after (hostWriteMem 23 0xAA s)).raced = [23] ∧ (after (hostWriteMem 24 0xAA s)).mem = [(24, 0xAA)] := by
  decide +kernel

/-- R220: reset leaves the output memory and clears KEYMASK. -/
theorem test_reset_keeps_memory :
    resetCore { loaded 20 with mem := [(3, 0xAA)], err := .invalidRange } = { State.reset with mem := [(3, 0xAA)] } := by
  decide +kernel

/-- R63: the last byte of the output memory is there, the next one is not. -/
theorem test_memory_edge :
    (after (hostReadMem 65535 { State.reset with mem := [(65535, 0x5A)] })).got = [.mem 65535 0x5A] ∧
    hostReadMem 65536 State.reset = .fault (.hostAddressAbsent 65536) := ⟨by decide +kernel, rfl⟩

/-- The memory's canonical form: addresses rise, and a second write replaces the first (R60). -/
theorem test_memory_is_canonical :
    Memory.write (Memory.write (Memory.write [] 9 1) 2 3) 9 4 = [(2, 3), (9, 4)] := by decide +kernel

/-! ## Witnesses: for each statement with hypotheses, a state and operands that meet them all together -/

/-- Every command answers a next state. -/
theorem exec_after (i : Instr) (s : State) : exec i s = .next (after (exec i s)) := by
  obtain ⟨t, h, -⟩ := exec_completed i s
  rw [h]; rfl

/-- A state with a FILLB of eight bytes at 16 running. -/
def filling (ms : List Move) : State := { dest 16 8 (loaded 2) with busy := true, cmd := 0x5, moves := ms }

/-- A state with a word running, no byte raced. -/
def running (c : Word) (ms : List Move) : State := { loaded 2 with busy := true, cmd := c, moves := ms }

theorem inv_filling (ms : List Move) : MachineInv (filling ms) := by
  constructor <;> simp [filling, dest, loaded, State.reset]

theorem inv_running (c : Word) (ms : List Move) : MachineInv (running c ms) := by
  constructor <;> simp [running, loaded, State.reset]

/-- A state with the RFC key and two rounds is ready. -/
theorem ready_of {s : State} (hk : s.key = rfcKey.map some) (hr : s.rounds = 2) : Ready s rfcKey 2 := by
  unfold Ready KernelIs RoundsOk
  rw [hk, hr]
  decide +kernel

theorem witness_DecodeOfEncodeGivesInstructionBack : (Instr.qround 15 0 9 4).wellFormed = true := by decide +kernel

theorem witness_LegalWordsAreExactlyTheCommandWords : decode 0x00000306 = .ok .filli64 := by decide +kernel

theorem witness_StepRunsDecodedCommand :
    (CoreNext (running 0x1 []) (running 0x1 []) ∧ (running 0x1 []).busy = true ∧
      decode (running 0x1 []).cmd = .ok .block) ∧
    (CoreNext (running 0x3 [.core, .readReg 1]) (running 0x3 [.readReg 1]) ∧ (running 0x3 []).busy = true ∧
      decode (running 0x3 []).cmd = .ok .skip) ∧
    State.reset.raced = [] ∧
    (∀ m : Move, (running 0x3 [m]).moves = m :: []) ∧ (running 0x3 [.wait 0]).busy = true ∧
    ({ State.reset with moves := [.wait 2] } : State).busy = false :=
  ⟨⟨.inl ⟨rfl, rfl⟩, rfl, by decide +kernel⟩, ⟨.inr ⟨_, rfl, rfl⟩, rfl, by decide +kernel⟩, rfl, fun _ => rfl, rfl, rfl⟩

theorem witness_IllegalWordChangesOnlyErr :
    MachineInv (running 0x9 [.core]) ∧ CoreNext (running 0x9 [.core]) (running 0x9 []) ∧
      (running 0x9 [.core]).busy = true ∧ legal (running 0x9 [.core]).cmd = false :=
  ⟨inv_running _ _, .inr ⟨_, rfl, rfl⟩, rfl, by decide +kernel⟩

theorem witness_CmdWriteWhileIdleStartsCommand :
    let s := { State.reset with moves := [.writeReg 0x00 0x9] }
    s.busy = false ∧ s.moves = .writeReg 0x00 0x9 :: [] := ⟨rfl, rfl⟩

theorem witness_RegisterWritesWhileBusyAreDropped :
    let s := running 0x1 [.writeReg 0x03 7, .core]
    s.busy = true ∧ s.moves = .writeReg 0x03 7 :: [.core] := ⟨rfl, rfl⟩

theorem witness_CoreMoveCompletesEveryCommand :
    CoreNext (running 0x9 []) (running 0x9 []) ∧ (running 0x9 []).busy = true := ⟨.inl ⟨rfl, rfl⟩, rfl⟩

theorem witness_CommandCompletesUnderEverySchedule :
    (let s := filling [.writeMem 65535 1, .readMem 23, .readReg 4, .writeReg 0 1, .wait 2];
      s.busy = true ∧ .reset ∉ s.moves ∧
      ∀ m ∈ s.moves, ∀ a b, (m = .writeMem a b → a < s.outSize) ∧ (m = .readMem a → a < s.outSize)) ∧
    (∀ n, ({ State.reset with moves := Machine.run .block n ++ [.readReg 2] } : State).busy = false ∧
      ({ State.reset with moves := Machine.run .block n ++ [.readReg 2] } : State).moves =
        Machine.run .block n ++ [.readReg 2]) := by
  refine ⟨⟨rfl, by decide +kernel, ?_⟩, fun n => ⟨rfl, rfl⟩⟩
  intro m hm a b
  simp only [filling, List.mem_cons, List.not_mem_nil, or_false] at hm
  rcases hm with rfl | rfl | rfl | rfl | rfl <;> simp [filling, dest, loaded, State.reset] <;> omega

theorem witness_OnlyAbsentHostAddressesStopTheMachine :
    let s := { State.reset with moves := [.writeMem 65536 0] }
    let t := { State.reset with moves := [.readMem 65536] }
    step s = .fault (.hostAddressAbsent 65536) ∧ (s.outSize ≤ 65536 ∧ s.moves = .writeMem 65536 0 :: []) ∧
      (t.outSize ≤ 65536 ∧ t.moves = .readMem 65536 :: []) :=
  ⟨rfl, ⟨le_refl _, rfl⟩, ⟨le_refl _, rfl⟩⟩

theorem witness_DisciplinedMovesGoOnWithoutRaces :
    (Disciplined State.reset (.writeReg 0 1) ∧ Disciplined (filling []) (.readReg 1) ∧
      Disciplined (filling []) (.writeMem 24 0) ∧ Disciplined (filling []) (.readMem 15) ∧
      Disciplined (filling []) .reset ∧ Disciplined (filling []) .core) ∧
    (filling [.core]).moves = .core :: [] ∧ State.reset.raced = [] ∧ (filling []).raced = [] := by
  refine ⟨⟨rfl, trivial, ⟨?_, ?_⟩, ⟨?_, ?_⟩, trivial, trivial⟩, rfl, rfl, rfl⟩ <;> decide +kernel

theorem witness_StepKeepsInvariant :
    MachineInv (filling [.writeMem 23 0xAA]) ∧ ∃ t, step (filling [.writeMem 23 0xAA]) = .next t ∧ t.raced = [23] :=
  ⟨inv_filling _, after (step (filling [.writeMem 23 0xAA])), rfl, by decide +kernel⟩

theorem witness_NoStepChangesParameters : step State.reset = .next State.reset := rfl

theorem witness_OnlyResetUnloadsKernelWords :
    step (loaded 2) = .next (loaded 2) ∧ (∀ ms, (loaded 2).moves ≠ .reset :: ms) ∧
      (loaded 2).keyMask.getLsbD (7 : Fin 8) = true :=
  ⟨rfl, fun ms h => (by cases h), by decide +kernel⟩

theorem witness_CommandsWriteOnlyTheirRegisters :
    (∃ t, exec .block (loaded 2) = .next t) ∧ (∃ t, exec .blockraw (loaded 2) = .next t) ∧
    (∃ t, exec (.qround 0 0 0 0) (loaded 2) = .next t) ∧ (∃ t, exec .skip (loaded 2) = .next t) :=
  ⟨⟨_, exec_after _ _⟩, ⟨_, exec_after _ _⟩, ⟨_, exec_after _ _⟩, ⟨_, exec_after _ _⟩⟩

theorem witness_FillsWriteOnlyTheirDestination :
    ∀ p ∈ fills, ∃ t, exec p.1 (dest 16 8 (bounds 0 2 (loaded 2))) = .next t := fun p _ => ⟨_, exec_after p.1 _⟩

theorem witness_ErrorsCommitNothingElse :
    (∃ t, exec .block State.reset = .next t ∧ t.err ≠ .ok) ∧
    (∃ t, exec .filli8 (dest 0 1 (bounds 0 2 (at' maxU64 maxU64 (loaded 2)))) = .next t ∧ t.err ≠ .ok) :=
  ⟨⟨_, exec_after _ _, by decide +kernel⟩, ⟨_, exec_after _ _, by decide +kernel⟩⟩

theorem witness_CommandsRaiseOnlyTheirErrors :
    ∃ t, exec .fillbig (loaded 2) = .next t ∧ t.err = .invalidRange := ⟨_, exec_after _ _, by decide +kernel⟩

theorem witness_CommandsNeverMoveLocaleBack : ∃ t, exec .mock (advance 640 (at' maxU64 0 State.reset)) = .next t :=
  ⟨_, exec_after _ _⟩

theorem witness_OutcomeDependsOnOperandsAlone :
    (SameOperands .block (loaded 2) { dest 9 9 (loaded 2) with err := .invalidRange, mem := [(3, 1)] } ∧
      ∃ t, exec .block (loaded 2) = .next t ∧ t.err = .ok ∧ UsesLocale .block) ∧
    (let s := dest 16 8 (bounds 0 2 (loaded 2));
      SameOperands .filli8 s { advance 7 s with mem := [(17, 1)] } ∧
      ∃ t, exec .filli8 s = .next t ∧ t.err = .ok ∧ (Instr.filli8, 1) ∈ fills ∧ s.dst.toNat ≤ 23 ∧
        23 < s.dst.toNat + s.count.toNat * 1) ∧
    SameOperands (.qround 0 1 2 3) (loaded 2) State.reset := by
  refine ⟨⟨by (constructor <;> simp [transformCommands, fills, samplingFills, dest]); intros; rfl, _,
      exec_after _ _, by decide +kernel, by decide, fun _ _ _ _ h => (by cases h)⟩,
    ⟨by (constructor <;> simp [advance]); intros; rfl, _, exec_after _ _, by decide +kernel, by decide,
      by decide +kernel, by decide +kernel⟩, ?_⟩
  constructor <;> simp [transformCommands, fills, samplingFills, UsesLocale] <;> rfl

theorem witness_QuarterRoundOnFourDifferentWords : ([0, 5, 10, 15] : List (Fin 16)).Nodup := by decide +kernel

theorem witness_BlockCompletesAndAdvancesByOne :
    Ready (at' (maxU64 - 1) maxU64 (loaded 2)) rfcKey 2 ∧
      (at' (maxU64 - 1) maxU64 (loaded 2)).locale.index < top := ⟨ready_of rfl rfl, by decide +kernel⟩

theorem witness_BlockrawCompletesOnRawPosition : Ready (at' maxU64 maxU64 (loaded 2)) rfcKey 2 := ready_of rfl rfl

theorem witness_BlockViewsConvertOneValue : (List.replicate 64 (0xAA : Byte)).length = 64 := by decide +kernel

theorem witness_LocaleIndexIsOrderedBijection : top ≤ top := le_refl _

theorem witness_SkipIsAdditionOnTheIndex :
    (Machine.Locale.index ⟨maxU64 - 1, maxU64⟩ + (1 : BitVec 64).toNat ≤ top) ∧
    (top < Machine.Locale.index ⟨maxU64 - 1, maxU64⟩ + (2 : BitVec 64).toNat) := by decide +kernel

theorem witness_ZeroAdvanceIsIdentityAndTopIsFinal :
    ((1 : BitVec 64) ≠ 0 ∧ maxU64 ≠ 0) ∧
    ((at' maxU64 maxU64 State.reset).nLo = 0 ∧ (at' maxU64 maxU64 State.reset).nHi = 0) ∧
    ((at' maxU64 maxU64 State.reset).locale.index = top ∧ (advance 1 State.reset).nLo ≠ 0 ∧
      (at' maxU64 maxU64 (advance 1 State.reset)).locale.index = top) := by decide +kernel

theorem witness_OneBlockWrapCarriesIntoStream :
    Machine.Locale.skip ⟨maxU64, 0⟩ 1 = some ⟨0, 1⟩ ∧ Machine.Locale.skip ⟨maxU64 - 1, 0⟩ 1 = some ⟨maxU64, 0⟩ := by
  decide +kernel

theorem witness_SkipAndMockCompleteByTheirCounts :
    let s := advance 1 (at' (maxU64 - 1) maxU64 State.reset)
    let t := advance 64 (at' (maxU64 - 1) maxU64 State.reset)
    s.locale.index + (2 ^ 32 * s.nHi.toNat + s.nLo.toNat) ≤ top ∧
    t.locale.index + (2 ^ 32 * t.nHi.toNat + t.nLo.toNat + 63) / 64 ≤ top := by decide +kernel

theorem witness_KernelThenRoundsAreCheckedFirst :
    (.block ∈ transformCommands ∧ (sevenWords 2).keyMask ≠ 0xFF#8) ∧
    (.block ∈ transformCommands ∧ (loaded 0).keyMask = 0xFF#8 ∧ ¬ RoundsOk (loaded 0)) ∧
    ((loaded 0x80000000).keyMask = 0xFF#8 ∧ ¬ RoundsOk (loaded 0x80000000)) ∧ KernelIs (loaded 2) rfcKey := by
  unfold RoundsOk KernelIs
  decide +kernel

theorem witness_BoundsAreCheckedForRangeThenWidth :
    (Ready (bounds 5 6 (at' 0 0 (loaded 2))) rfcKey 2 ∧
      (∀ p ∈ narrowFills, highBound p.2 (bounds 5 6 (loaded 2)) - lowBound p.2 (bounds 5 6 (loaded 2)) < 2) ∧
      bigHigh (bounds 5 6 (loaded 2)) - bigLow (bounds 5 6 (loaded 2)) < 2) ∧
    (Ready (bounds 0 (2 ^ 511) (at' 0 0 (loaded 2))) rfcKey 2 ∧
      2 ≤ bigHigh (bounds 0 (2 ^ 511) (loaded 2)) - bigLow (bounds 0 (2 ^ 511) (loaded 2)) ∧
      ¬ BoundsInEnvelope (bounds 0 (2 ^ 511) (loaded 2))) := by
  refine ⟨⟨ready_of rfl rfl, ?_, ?_⟩, ⟨ready_of rfl rfl, ?_, ?_⟩⟩
  · decide +kernel
  · decide +kernel
  · decide +kernel
  · unfold BoundsInEnvelope; decide +kernel

theorem witness_DestinationOutsideMemoryIsInvalidBuffer :
    let s := dest 65536 1 (bounds 0 2 (at' 0 0 (loaded 2)))
    Ready s rfcKey 2 ∧ s.outSize < s.dst.toNat + s.count.toNat ∧
      (∀ p ∈ narrowFills, 2 ≤ highBound p.2 s - lowBound p.2 s ∧
        s.outSize < s.dst.toNat + s.count.toNat * (p.2 / 8)) ∧
      (2 ≤ bigHigh s - bigLow s ∧ BoundsInEnvelope s ∧ s.outSize < s.dst.toNat + s.count.toNat * 64) := by
  refine ⟨ready_of rfl rfl, ?_, ?_, ?_, ?_, ?_⟩
  · decide +kernel
  · decide +kernel
  · decide +kernel
  · unfold BoundsInEnvelope; decide +kernel
  · decide +kernel

theorem witness_AdvancePastTopIsLocaleOverflow :
    let s := dest 0 65 (advance 65 (at' (maxU64 - 1) maxU64 (loaded 2)))
    (Ready (at' maxU64 maxU64 (loaded 2)) rfcKey 2 ∧ (at' maxU64 maxU64 (loaded 2)).locale.index = top) ∧
    top < s.locale.index + (2 ^ 32 * s.nHi.toNat + s.nLo.toNat) ∧
    top < s.locale.index + (2 ^ 32 * s.nHi.toNat + s.nLo.toNat + 63) / 64 ∧
    (Ready s rfcKey 2 ∧ s.dst.toNat + s.count.toNat ≤ s.outSize ∧
      top < s.locale.index + (s.count.toNat + 63) / 64) := by
  refine ⟨⟨ready_of rfl rfl, ?_⟩, ?_, ?_, ready_of rfl rfl, ?_, ?_⟩ <;> decide +kernel

theorem witness_SmearIsLeastAllOnesMaskAndAcceptsOverHalf :
    5 ≤ 2 ^ 3 - 1 ∧ 2 ^ 64 - 1 < 2 ^ 2 ^ 6 ∧ 2 ^ 512 - 2 < 2 ^ 2 ^ 9 ∧ 1 ≤ 1 := by decide +kernel

theorem witness_FillbCompletesWithBlockBytes :
    let s := dest 65536 0 (at' maxU64 maxU64 (loaded 2))
    let t := dest 65472 64 (at' (maxU64 - 1) maxU64 (loaded 2))
    (Ready s rfcKey 2 ∧ s.dst.toNat + s.count.toNat ≤ s.outSize ∧
      s.locale.index + (s.count.toNat + 63) / 64 ≤ top) ∧
    (Ready t rfcKey 2 ∧ t.dst.toNat + t.count.toNat ≤ t.outSize ∧
      t.locale.index + (t.count.toNat + 63) / 64 ≤ top) := by
  refine ⟨⟨ready_of rfl rfl, ?_, ?_⟩, ready_of rfl rfl, ?_, ?_⟩ <;> decide +kernel

theorem witness_FillbMovesLocaleAsMock :
    let s := dest 0 65 (at' maxU64 maxU64 (loaded 2))
    Ready s rfcKey 2 ∧ s.dst.toNat + s.count.toNat ≤ s.outSize ∧ (∃ t, exec .fillb s = .next t) ∧
      ∃ u, exec .mock { s with nLo := s.count, nHi := 0 } = .next u :=
  ⟨ready_of rfl rfl, by decide +kernel, ⟨_, exec_after _ _⟩, ⟨_, exec_after _ _⟩⟩

theorem witness_FillbSplitsAtBlockBoundaries :
    let s := dest 3 65 (at' maxU64 0 (loaded 2))
    Ready s rfcKey 2 ∧ s.dst.toNat + s.count.toNat ≤ s.outSize ∧
      s.locale.index + (s.count.toNat + 63) / 64 ≤ top ∧ (64 : Word).toNat % 64 = 0 ∧
      (64 : Word).toNat + (1 : Word).toNat = s.count.toNat ∧ (67 : Word).toNat = s.dst.toNat + (64 : Word).toNat := by
  refine ⟨ready_of rfl rfl, ?_, ?_, ?_, ?_, ?_⟩ <;> decide +kernel

theorem witness_FilliCompletesWithAcceptedDraws :
    let s := dest 8 9 (bounds 0 2 (at' (maxU64 - 2) maxU64 (loaded 2)))
    let t := dest 65536 0 (bounds 0 2 (at' maxU64 maxU64 (loaded 2)))
    (Ready s rfcKey 2 ∧ s.locale.index + (9 + 7) / 8 ≤ top ∧ ∀ p ∈ narrowFills,
      2 ≤ highBound p.2 s - lowBound p.2 s ∧ s.dst.toNat + s.count.toNat * (p.2 / 8) ≤ s.outSize ∧
      DrawsFor (draw s rfcKey 2) (rangeOf (lowBound p.2 s) (highBound p.2 s)) s.count.toNat 9) ∧
    (Ready t rfcKey 2 ∧ t.locale.index + (0 + 7) / 8 ≤ top ∧ ∀ p ∈ narrowFills,
      2 ≤ highBound p.2 t - lowBound p.2 t ∧ t.dst.toNat + t.count.toNat * (p.2 / 8) ≤ t.outSize ∧
      DrawsFor (draw t rfcKey 2) (rangeOf (lowBound p.2 t) (highBound p.2 t)) t.count.toNat 0) := by
  refine ⟨⟨ready_of rfl rfl, ?_, ?_⟩, ready_of rfl rfl, ?_, ?_⟩
  · decide +kernel
  · unfold DrawsFor; decide +kernel
  · decide +kernel
  · unfold DrawsFor; decide +kernel

theorem witness_FillbigCompletesWithAcceptedBlocks :
    let s := dest 65472 1 (bounds 0 2 (at' (maxU64 - 1) maxU64 (loaded 2)))
    Ready s rfcKey 2 ∧ 2 ≤ bigHigh s - bigLow s ∧ BoundsInEnvelope s ∧
      s.dst.toNat + s.count.toNat * 64 ≤ s.outSize ∧
      DrawsFor (attempt s rfcKey 2) (rangeOf (bigLow s) (bigHigh s)) s.count.toNat 1 ∧ s.locale.index + 1 ≤ top := by
  refine ⟨ready_of rfl rfl, ?_, ?_, ?_, ?_, ?_⟩
  · decide +kernel
  · unfold BoundsInEnvelope; decide +kernel
  · decide +kernel
  · unfold DrawsFor; decide +kernel
  · decide +kernel

theorem witness_SamplingPastTopLeavesDestinationFree :
    let s := dest 0 9 (bounds 0 2 (at' (maxU64 - 1) maxU64 (loaded 2)))
    Ready s rfcKey 2 ∧ (∀ p ∈ narrowFills,
      2 ≤ highBound p.2 s - lowBound p.2 s ∧ s.dst.toNat + s.count.toNat * (p.2 / 8) ≤ s.outSize ∧
      (accepted (draw s rfcKey 2) (rangeOf (lowBound p.2 s) (highBound p.2 s)) (8 * (top - s.locale.index))).length <
        s.count.toNat) ∧
    2 ≤ bigHigh s - bigLow s ∧ BoundsInEnvelope s ∧ s.dst.toNat + s.count.toNat * 64 ≤ s.outSize ∧
    (accepted (attempt s rfcKey 2) (rangeOf (bigLow s) (bigHigh s)) (top - s.locale.index)).length <
      s.count.toNat := by
  refine ⟨ready_of rfl rfl, ?_, ?_, ?_, ?_, ?_⟩
  · decide +kernel
  · decide +kernel
  · unfold BoundsInEnvelope; decide +kernel
  · decide +kernel
  · decide +kernel

theorem witness_SampledValuesLieInTheInterval :
    let s := dest 0 1 (bounds (-5) 5 (loaded 2))
    (∀ p ∈ narrowFills, ∃ t, exec p.1 s = .next t ∧ t.err = .ok) ∧ (∃ t, exec .fillbig s = .next t ∧ t.err = .ok) ∧
      0 < s.count.toNat := by
  intro s
  refine ⟨fun p hp => ⟨_, exec_after _ _, ?_⟩, ⟨_, exec_after _ _, by decide +kernel⟩, by decide +kernel⟩
  revert p hp
  decide +kernel

theorem witness_RegisterMapIsOneToOne :
    [0x00#8, 0x0F#8, 0x17#8, 0x2F#8, 0x50#8, 0x70#8].map Reg.atIndex =
      [some .cmd, some (.pos 3), some (.key 7), some (.blk 15), some (.min 16), some (.max 16)] := by decide +kernel

theorem witness_IdleWriteChangesOneRegister :
    State.reset.busy = false ∧ Reg.max 16 ≠ .cmd ∧ Reg.max 16 ≠ .status ∧ Reg.max 16 ≠ .err ∧
      (∀ i, Reg.max 16 ≠ .key i) ∧ (∀ i, Reg.max 16 ≠ .blk i) := by decide +kernel

theorem witness_KeyWriteLoadsWordAndMaskBit : State.reset.busy = false ∧ (7 : Fin 8) ≠ 0 := by decide +kernel

theorem witness_UnmappedAndReadOnlyAccessesHaveNoEffect :
    [0x18#8, 0x1F#8, 0x51#8, 0x5F#8, 0x71#8, 0xFF#8].map Reg.atIndex = [none, none, none, none, none, none] ∧
    (0x20#8 ≤ 0x20#8 ∧ 0x20#8 ≤ 0x2F#8) ∧ (0x20#8 ≤ 0x2F#8 ∧ 0x2F#8 ≤ 0x2F#8) := by decide +kernel

theorem witness_ReadsChangeNoState :
    (running 0x3 [.readReg 0x04]).moves = .readReg 0x04 :: [] ∧
    65535 < (filling [.readMem 65535]).outSize ∧ (filling [.readMem 65535]).moves = .readMem 65535 :: [] := by
  decide +kernel

theorem witness_ReadsWhileBusyFollowTheRunningCommand :
    ((running 0x3 []).busy = true ∧ decode (running 0x3 []).cmd = .ok .skip ∧
      Reg.pebbleLo ∈ [Reg.pebbleLo, .pebbleHi, .streamLo, .streamHi] ∧ Instr.skip ≠ .blockraw ∧
      ∀ a b c d, Instr.skip ≠ .qround a b c d) ∧
    (decode (running 0x2 []).cmd = .ok .blockraw ∧ ∃ j, Reg.blk 15 = .blk j) ∧
    ((running 0x9 []).busy = true ∧ decode (running 0x9 []).cmd = .error (.noSuchOperation 9)) ∧
    (decode (running 0x8 []).cmd = .ok (.qround 0 0 0 0) ∧ ∃ j, Reg.sreg 0 = .sreg j) ∧ State.reset.busy = false :=
  ⟨⟨rfl, by decide +kernel, by decide +kernel, by decide +kernel, fun _ _ _ _ h => (by cases h)⟩,
    ⟨by decide +kernel, _, rfl⟩, ⟨rfl, by decide +kernel⟩, ⟨by decide +kernel, _, rfl⟩, rfl⟩

theorem witness_KernelWordsAreUnreadable :
    State.keyMask { loaded 2 with key := Vector.replicate 8 (some 0xFFFFFFFF) } = (loaded 2).keyMask := by
  decide +kernel

theorem witness_HostMemoryIsPlainOutsideTheDestination :
    24 < (filling [.writeMem 24 1]).outSize ∧ (filling [.writeMem 24 1]).inDest 24 = false ∧
      (filling [.writeMem 24 1]).moves = .writeMem 24 1 :: [] ∧ (filling [.readMem 15]).inDest 15 = false ∧
      (filling [.readMem 15]).moves = .readMem 15 :: [] := by decide +kernel

theorem witness_RacesInTheDestinationGiveAnyValue :
    (23 < (filling [.readMem 23]).outSize ∧ (filling [.readMem 23]).inDest 23 = true ∧
      (filling [.readMem 23]).moves = .readMem 23 :: []) ∧
    ((filling [.writeMem 16 1]).inDest 16 = true ∧ (filling [.writeMem 16 1]).moves = .writeMem 16 1 :: []) ∧
    (CoreNext { filling [] with raced := [23] } { filling [] with raced := [23] } ∧
      ∃ t, step { filling [] with raced := [23] } = .next t) := by
  refine ⟨by decide +kernel, by decide +kernel, .inl ⟨rfl, rfl⟩, ?_⟩
  obtain ⟨t, h, -⟩ := coreMove_of_busy (s := { filling [] with raced := [23] }) rfl
  exact ⟨_, (step_of_nil rfl).trans h⟩

theorem witness_ResetRestoresEveryRegister :
    (filling [.reset]).moves = .reset :: [] ∧ (filling [.reset]).inDest 15 = false ∧
      (filling [.reset]).inDest 16 = true ∧ 16 < (filling [.reset]).outSize := by decide +kernel

theorem witness_SetMinLoadsTheBound :
    let s := { State.reset with moves := setMin (-2 ^ 543) ++ setMin (2 ^ 543 - 1) }
    s.busy = false ∧ (-2 ^ 543 : Int) ≤ -2 ^ 543 ∧ (-2 ^ 543 : Int) ≤ 2 ^ 543 - 1 ∧
      s.moves = setMin (-2 ^ 543) ++ setMin (2 ^ 543 - 1) := by
  refine ⟨rfl, le_refl _, by decide +kernel, rfl⟩

end Sys2Proof.Tests
end

section
/-!
SUPPORT. The invariant of the machine and its parameters under every move (spec/00_scope.md R9, spec/20_memory.md R60,
R70).
-/

namespace Sys2Proof.Proofs

open Machine Claim

/-! ## What a step does, by the move it makes -/

/-- A step is the core's move when no move is left, and else the first move on the list (10_state R40, R44). -/
theorem step_next_cases {s t : State} (h : step s = .next t) :
    (s.moves = [] ∧ coreMove s = .next t) ∨
      ∃ m ms, s.moves = m :: ms ∧ makeMove m { s with moves := ms } = .next t := by
  cases hm : s.moves with
  | nil => exact .inl ⟨rfl, by rw [← step_of_nil hm, h]⟩
  | cons m ms => exact .inr ⟨m, ms, rfl, by rw [← step_of_cons hm, h]⟩

/-- The core's move changes nothing on an idle core, and on a busy one leaves a completed command with its races
settled. -/
theorem coreMove_next_cases {s t : State} (h : coreMove s = .next t) :
    t = s ∨ ∃ u, t = u.settleRaces ∧ Completed s u ∧ (s.mem.Good s.outSize → u.mem.Good s.outSize) := by
  cases hb : s.busy with
  | false =>
    rw [coreMove_of_idle hb] at h
    cases h
    exact .inl rfl
  | true =>
    obtain ⟨u, hu, hc, hg⟩ := coreMove_of_busy hb
    rw [hu] at h
    cases h
    exact .inr ⟨u, rfl, hc, hg⟩

/-- A write to any register leaves the output memory, the parameters and the raced bytes alone (10_state R22 to R34). -/
theorem writeIdle_frame (s : State) (v : Word) (r : Reg) :
    (s.writeIdle v r).mem = s.mem ∧ (s.writeIdle v r).outSize = s.outSize ∧
      (s.writeIdle v r).posOrder = s.posOrder ∧ (s.writeIdle v r).raced = s.raced := by
  cases r <;> exact ⟨rfl, rfl, rfl, rfl⟩

/-! ## The parameters -/

/-- The core's move keeps both parameters. -/
theorem coreMove_parameters {s t : State} (h : coreMove s = .next t) :
    t.outSize = s.outSize ∧ t.posOrder = s.posOrder := by
  rcases coreMove_next_cases h with rfl | ⟨u, rfl, hc, -⟩
  · exact ⟨rfl, rfl⟩
  · exact ⟨hc.outSize, hc.posOrder⟩

/-- Every move keeps both parameters (00_scope R9). -/
theorem makeMove_parameters {m : Move} {s t : State} (h : makeMove m s = .next t) :
    t.outSize = s.outSize ∧ t.posOrder = s.posOrder := by
  cases m with
  | writeReg ri v =>
    cases h
    rcases hostWriteReg_cases ri v s with e | ⟨r, -, -, e⟩ <;> rw [e]
    · exact ⟨rfl, rfl⟩
    · obtain ⟨-, hsize, horder, -⟩ := writeIdle_frame s v r
      exact ⟨hsize, horder⟩
  | readReg ri =>
    cases h
    obtain ⟨v, f, e⟩ := hostReadReg_cases ri s
    rw [e]
    exact ⟨rfl, rfl⟩
  | writeMem a b =>
    rw [makeMove] at h
    rcases hostWriteMem_cases a b s with ⟨-, e⟩ | ⟨-, -, e⟩ | ⟨-, -, e⟩ <;> rw [e] at h <;> cases h <;>
      exact ⟨rfl, rfl⟩
  | readMem a =>
    rw [makeMove] at h
    rcases hostReadMem_cases a s with ⟨-, e⟩ | ⟨-, -, e⟩ | ⟨-, -, e⟩ <;> rw [e] at h <;> cases h <;>
      exact ⟨rfl, rfl⟩
  | wait n =>
    cases h
    obtain ⟨g, ms, e⟩ := hostWait_cases n s
    rw [e]
    exact ⟨rfl, rfl⟩
  | reset =>
    cases h
    exact ⟨rfl, rfl⟩
  | core => exact coreMove_parameters h

/-- Settles O16: each move keeps the parameters, and taking the move off the list does too. -/
theorem noStepChangesParameters : Obligations.NoStepChangesParameters := by
  intro s t h
  rcases step_next_cases h with ⟨-, hc⟩ | ⟨m, ms, -, hm⟩
  · exact coreMove_parameters hc
  · exact (makeMove_parameters hm :)

/-! ## The machine invariant -/

/-- The invariant's part on the output memory, as the memory laws state it. -/
theorem good_of_machineInv {s : State} (h : MachineInv s) : s.mem.Good s.outSize := ⟨h.mem_wf, h.mem_bound⟩

/-- With no raced byte the invariant is the range of OUT_SIZE and the form of the memory. -/
theorem machineInv_of_unraced {s : State} (hpos : 1 ≤ s.outSize) (hle : s.outSize ≤ 2 ^ 32)
    (hmem : s.mem.Good s.outSize) (hr : s.raced = []) : MachineInv s where
  size_pos := hpos
  size_le := hle
  mem_wf := hmem.1
  mem_bound := hmem.2
  raced_rising := by simp [hr]
  raced_bound := by simp [hr]
  raced_dest := by simp [hr]

/-- The invariant says nothing of the free values used, the host's record and the moves to come. -/
theorem machineInv_host_side {s : State} (h : MachineInv s) (f : Nat) (g : List Got) (ms : List Move) :
    MachineInv { s with fresh := f, got := g, moves := ms } :=
  ⟨h.size_pos, h.size_le, h.mem_wf, h.mem_bound, h.raced_rising, h.raced_bound, h.raced_dest⟩

/-- An idle core has no destination, so the invariant leaves it no raced byte (20_memory R70). -/
theorem raced_of_idle {s : State} (h : MachineInv s) (hb : s.busy = false) : s.raced = [] :=
  List.eq_nil_iff_forall_not_mem.mpr fun a ha =>
    absurd (h.raced_dest a ha) (by simp [State.inDest_of_idle hb])

/-- A host register write keeps the invariant: what an idle core takes, a command word included, starts with no raced
byte. -/
theorem hostWriteReg_keeps_inv {s : State} (h : MachineInv s) (ri : BitVec 8) (v : Word) :
    MachineInv (hostWriteReg ri v s) := by
  rcases hostWriteReg_cases ri v s with e | ⟨r, hb, -, e⟩ <;> rw [e]
  · exact h
  · obtain ⟨hmem, hsize, -, hraced⟩ := writeIdle_frame s v r
    apply machineInv_of_unraced
    · rw [hsize]; exact h.size_pos
    · rw [hsize]; exact h.size_le
    · rw [hmem, hsize]; exact good_of_machineInv h
    · rw [hraced]; exact raced_of_idle h hb

/-- A host memory write keeps the invariant: it races inside the destination, and writes an existing byte elsewhere
(20_memory R63, R70). -/
theorem hostWriteMem_keeps_inv {s t : State} (h : MachineInv s) {a : Nat} {b : Byte}
    (ht : hostWriteMem a b s = .next t) : MachineInv t := by
  rcases hostWriteMem_cases a b s with ⟨-, e⟩ | ⟨ha, hd, e⟩ | ⟨ha, -, e⟩ <;> rw [e] at ht <;> cases ht
  · refine ⟨h.size_pos, h.size_le, h.mem_wf, h.mem_bound, insertAddress_rising h.raced_rising, ?_, ?_⟩
    · intro x hx
      rcases mem_insertAddress.mp hx with rfl | hx
      · exact ha
      · exact h.raced_bound x hx
    · intro x hx
      rcases mem_insertAddress.mp hx with rfl | hx
      · exact hd
      · exact h.raced_dest x hx
  · obtain ⟨hwf, hbound⟩ := (good_of_machineInv h).write b ha
    exact ⟨h.size_pos, h.size_le, hwf, hbound, h.raced_rising, h.raced_bound, h.raced_dest⟩

/-- A host memory read keeps the invariant. -/
theorem hostReadMem_keeps_inv {s t : State} (h : MachineInv s) {a : Nat} (ht : hostReadMem a s = .next t) :
    MachineInv t := by
  rcases hostReadMem_cases a s with ⟨-, e⟩ | ⟨-, -, e⟩ | ⟨-, -, e⟩ <;> rw [e] at ht <;> cases ht <;>
    exact machineInv_host_side h _ _ _

/-- The part of a destination that exists ends inside the output memory, or is empty. -/
theorem presentSize_fits (s : State) : s.dst.toNat + s.presentSize ≤ s.outSize ∨ s.presentSize = 0 := by
  have hmin : Nat.min (s.dst.toNat + s.runningSize) s.outSize ≤ s.outSize := Nat.min_le_right _ _
  unfold State.presentSize
  omega

/-- The reset input keeps the invariant: the bytes it frees exist, and no byte stays raced (70 R220, R222). -/
theorem resetCore_keeps_inv {s : State} (h : MachineInv s) : MachineInv (resetCore s) :=
  machineInv_of_unraced h.size_pos h.size_le ((good_of_machineInv h).setFree _ _ (presentSize_fits s)) rfl

/-- The core's move keeps the invariant: the command does, and the settling frees bytes that exist (20_memory R66,
R70). -/
theorem coreMove_keeps_inv {s t : State} (h : MachineInv s) (ht : coreMove s = .next t) : MachineInv t := by
  rcases coreMove_next_cases ht with rfl | ⟨u, rfl, hc, hgood⟩
  · exact h
  · have hmem : (u.mem.setFreeAt u.raced u.fresh).Good s.outSize :=
      (hgood (good_of_machineInv h)).setFreeAt _ _ (by rw [hc.raced]; exact h.raced_bound)
    apply machineInv_of_unraced <;> simp only [State.settleRaces_outSize, State.settleRaces_mem,
      State.settleRaces_raced, hc.outSize]
    · exact h.size_pos
    · exact h.size_le
    · exact hmem

/-- Every move keeps the invariant. -/
theorem makeMove_keeps_inv {m : Move} {s t : State} (h : MachineInv s) (ht : makeMove m s = .next t) :
    MachineInv t := by
  cases m with
  | writeReg ri v =>
    cases ht
    exact hostWriteReg_keeps_inv h ri v
  | readReg ri =>
    cases ht
    obtain ⟨v, f, e⟩ := hostReadReg_cases ri s
    rw [e]
    exact machineInv_host_side h _ _ _
  | writeMem a b => exact hostWriteMem_keeps_inv h ht
  | readMem a => exact hostReadMem_keeps_inv h ht
  | wait n =>
    cases ht
    obtain ⟨g, ms, e⟩ := hostWait_cases n s
    rw [e]
    exact machineInv_host_side h _ _ _
  | reset =>
    cases ht
    exact resetCore_keeps_inv h
  | core => exact coreMove_keeps_inv h ht

/-- Settles O14: each move keeps the invariant, and the moves to come have no part in it. -/
theorem stepKeepsInvariant : Obligations.StepKeepsInvariant := by
  intro s t h ht
  rcases step_next_cases ht with ⟨-, hc⟩ | ⟨m, ms, -, hm⟩
  · exact coreMove_keeps_inv h hc
  · exact makeMove_keeps_inv (machineInv_host_side h s.fresh s.got ms) hm

/-- Settles O15: at reset nothing is written and no byte is raced, and 65536 is in R9's range. -/
theorem resetStateMeetsInvariant : Obligations.ResetStateMeetsInvariant :=
  machineInv_of_unraced (by decide) (by decide) ⟨Memory.wf_reset, fun c hc => absurd hc List.not_mem_nil⟩ rfl

end Sys2Proof.Proofs
end

section
/-!
SUPPORT. One FILLB as two, at a block boundary (spec/41_locale.md R140, spec/42_sampling.md R155).
-/

namespace Sys2Proof.Proofs

open Machine Claim

/-- A ready state passes the two checks of `validated`, with its kernel and its round count (42_sampling R150). -/
theorem checks_of_ready {s : State} {k : Vector Word 8} {r : Nat} (h : Ready s k r) :
    s.kernel? = some k ∧ roundsValid s.roundCount = true ∧ s.roundCount.toNat = r := by
  obtain ⟨hk, hr, hn⟩ := h
  exact ⟨State.kernel?_eq_some.mpr hk, decide_eq_true hr, by rw [State.roundCount, hn]; rfl⟩

/-- The blocks of a locale stream are those of any state with the same parameter POS_ORDER. -/
theorem blockAt_congr {s u : State} (h : u.posOrder = s.posOrder) (k : Vector Word 8) (r : Nat) :
    u.blockAt k r = s.blockAt k r := by
  funext i
  rw [State.blockAt, State.blockAt, h]

/-- A ready state stays ready over a command's completion: no command writes the kernel or the rounds. -/
theorem ready_of_completed {s t : State} {k : Vector Word 8} {r : Nat} (h : Ready s k r) (hc : Completed s t) :
    Ready t k r := by
  unfold Ready KernelIs RoundsOk
  rw [hc.key, hc.rounds]
  exact h

/-- FILLB on a ready state whose destination and blocks exist: the bytes it stores and the locale it leaves
(42_sampling R155). -/
theorem fillb_of_ready {s : State} {k : Vector Word 8} {r : Nat} (h : Ready s k r)
    (hd : s.dst.toNat + s.count.toNat ≤ s.outSize) (ho : s.locale.index + blocksFor s.count.toNat ≤ lastIndex) :
    ∃ t, exec .fillb s = .next t ∧ Completed s t ∧ t.err = .ok ∧
      t.locale = Locale.ofIndex (s.locale.index + blocksFor s.count.toNat) ∧
      t.mem = fillBlocks (s.blockAt k r) (blocksFor s.count.toNat) s.locale.index s.count.toNat s.dst.toNat s.mem := by
  obtain ⟨hk, hr, hn⟩ := checks_of_ready h
  obtain ⟨t, ht, hc, herr, -, -, -, hloc, hmem⟩ := execFillb_of_ready hk hr hd ho
  exact ⟨t, ht, hc, herr, hloc, by rw [hmem, hn]⟩

/-- The blocks of whole blocks of bytes and some more bytes are those of each. -/
theorem blocksFor_whole_add {a : Nat} (b : Nat) (h : a % 64 = 0) : blocksFor (a + b) = a / 64 + blocksFor b := by
  unfold blocksFor
  omega

/-- Storing whole blocks of bytes and some more bytes is storing the whole blocks, then the rest from the next block and
the next address. -/
theorem fillBlocks_split (block : Nat → Block) {a : Nat} (b i dst : Nat) (m : Memory) (h : a % 64 = 0) :
    fillBlocks block (blocksFor (a + b)) i (a + b) dst m =
      fillBlocks block (blocksFor b) (i + a / 64) b (dst + a) (fillBlocks block (a / 64) i a dst m) := by
  have ha : 64 * (a / 64) = a := by omega
  rw [blocksFor_whole_add b h, fillBlocks_add _ _ _ _ _ _ _ (.inl (by omega)), ha, Nat.add_sub_cancel_left,
    fillBlocks_whole block (a / 64) i (a + b) a dst m (by omega) (by omega)]

/-- Settles O44: the first fill takes the whole blocks and leaves the locale at the next one, so the second fill's blocks,
addresses and memory are those the one fill goes on with. -/
theorem fillbSplitsAtBlockBoundaries : Obligations.FillbSplitsAtBlockBoundaries := by
  intro s k r c1 c2 dst2 hready hfit htop hc1 hsum hdst
  have hlast : s.locale.index + blocksFor s.count.toNat ≤ lastIndex := htop
  have hblocks : blocksFor s.count.toNat = c1.toNat / 64 + blocksFor c2.toNat := by
    rw [← hsum, blocksFor_whole_add _ hc1]
  have hwhole : blocksFor c1.toNat = c1.toNat / 64 := by
    rw [← Nat.add_zero c1.toNat, blocksFor_whole_add _ hc1]; simp [blocksFor]
  have hlt : s.locale.index + c1.toNat / 64 < 2 ^ 128 := by
    unfold lastIndex at hlast; omega
  obtain ⟨t, ht, -, herr, hloc, hmem⟩ := fillb_of_ready hready hfit hlast
  obtain ⟨t1, ht1, hcomp1, herr1, hloc1, hmem1⟩ :=
    fillb_of_ready (s := { s with count := c1 }) hready (show s.dst.toNat + c1.toNat ≤ s.outSize by omega)
      (show s.locale.index + blocksFor c1.toNat ≤ lastIndex by omega)
  have hready1 : Ready t1 k r := ready_of_completed (s := { s with count := c1 }) hready hcomp1
  have hindex1 : t1.locale.index = s.locale.index + c1.toNat / 64 := by
    rw [hloc1]
    show (Locale.ofIndex (s.locale.index + blocksFor c1.toNat)).index = _
    rw [hwhole, Locale.index_ofIndex _ hlt]
  obtain ⟨t2, ht2, -, herr2, hloc2, hmem2⟩ :=
    fillb_of_ready (s := { t1 with count := c2, dst := dst2 }) hready1
      (show dst2.toNat + c2.toNat ≤ t1.outSize by rw [hcomp1.outSize]; show _ ≤ s.outSize; omega)
      (show t1.locale.index + blocksFor c2.toNat ≤ lastIndex by omega)
  refine ⟨t, t1, t2, ht, ht1, ht2, herr, herr1, herr2, ?_, ?_⟩
  · have hblock : t1.blockAt k r = s.blockAt k r := blockAt_congr hcomp1.posOrder k r
    calc t2.mem
        = fillBlocks (t1.blockAt k r) (blocksFor c2.toNat) t1.locale.index c2.toNat dst2.toNat t1.mem := hmem2
      _ = fillBlocks (s.blockAt k r) (blocksFor c2.toNat) (s.locale.index + c1.toNat / 64) c2.toNat
            (s.dst.toNat + c1.toNat)
            (fillBlocks (s.blockAt k r) (c1.toNat / 64) s.locale.index c1.toNat s.dst.toNat s.mem) := by
          rw [hblock, hindex1, hdst, hmem1, ← hwhole]; rfl
      _ = t.mem := by rw [hmem, ← hsum, fillBlocks_split _ _ _ _ _ hc1]
  · calc t2.locale = Locale.ofIndex (t1.locale.index + blocksFor c2.toNat) := hloc2
      _ = t.locale := by rw [hloc, hindex1, hblocks, Nat.add_assoc]

end Sys2Proof.Proofs
end

section
/-!
SUPPORT. A command's results depend on its operands alone (spec/00_scope.md R7, spec/10_state.md R35): two runs of one
command side by side, from states that agree on what it reads.
-/

namespace Sys2Proof.Proofs

open Machine Claim

/-- `t` and `t'`, in which a command of `s` and of another state complete, hold the same results: the error, what the
command may write of the locale, S and BLK, and the bytes of the destination of `s`. -/
structure SameResults (i : Instr) (s t t' : State) : Prop where
  err : t'.err = t.err
  locale : UsesLocale i → t'.locale = t.locale
  quarterState : (∃ a b c d, i = .qround a b c d) → t'.sreg = t.sreg
  block : t.err = .ok → i = .block ∨ i = .blockraw → t'.blk = t.blk
  destination : t.err = .ok → i ∈ fills.map Prod.fst → ∀ x, s.dst.toNat ≤ x →
    x < s.dst.toNat + s.count.toNat * elementSize i → t'.byte x = t.byte x

/-- Two outcomes of a command are completions with the same results. -/
def Agree (i : Instr) (s : State) (o o' : Outcome) : Prop :=
  ∃ t t', o = .next t ∧ o' = .next t' ∧ SameResults i s t t'

/-! ## The commands by the operands they read -/

/-- The bytes of an element that the list of fills gives are the command's. -/
theorem elementSize_of_mem_fills : ∀ p ∈ fills, p.2 = elementSize p.1 := by decide

/-- The sampling fills are fills. -/
theorem mem_fills_of_sampling {i : Instr} (hi : i ∈ samplingFills.map Prod.fst) : i ∈ fills.map Prod.fst :=
  List.mem_cons_of_mem _ hi

/-- Every fill runs the transform. -/
theorem mem_transformCommands_of_fill : ∀ i ∈ fills.map Prod.fst, i ∈ transformCommands := by decide

/-- Every fill reads and may write the locale. -/
theorem usesLocale_of_fill {i : Instr} (hi : i ∈ fills.map Prod.fst) : UsesLocale i := by
  constructor
  · rintro rfl
    exact absurd hi (by decide)
  · rintro a b c d rfl
    simp [fills] at hi

/-! ## The checks read operands alone -/

section

variable {i : Instr} {s u : State} (h : SameOperands i s u)
include h

/-- States that agree on the operands of a command raise its errors alike: an error commits no result. -/
theorem agree_raise {e : ErrorKind} (he : e ≠ .ok) : Agree i s (raise e s) (raise e u) :=
  ⟨_, _, rfl, rfl, rfl, h.locale, h.quarterState, fun hok => absurd hok he, fun hok => absurd hok he⟩

/-- The kernel and rounds checks fail alike, or go on alike (42_sampling R150). -/
theorem agree_validated (hi : i ∈ transformCommands) {f g : Vector Word 8 → Nat → Outcome}
    (hfg : ∀ k r, Agree i s (f k r) (g k r)) : Agree i s (validated s f) (validated u g) := by
  obtain ⟨hkey, hrounds⟩ := h.kernelAndRounds hi
  have hk : u.kernel? = s.kernel? := by rw [State.kernel?, State.kernel?, hkey]
  have hr : u.roundCount = s.roundCount := by rw [State.roundCount, State.roundCount, hrounds]
  unfold validated
  rw [hk, hr]
  cases s.kernel? with
  | none => exact agree_raise h (by decide)
  | some k =>
    cases hv : roundsValid s.roundCount with
    | false => exact agree_raise h (by decide)
    | true => exact hfg k _

/-- The buffer check reads DST, COUNT and OUT_SIZE alone (42_sampling R151). -/
theorem dstFits_of_sameOperands (hi : i ∈ fills.map Prod.fst) (n : Nat) : u.dstFits n = s.dstFits n := by
  obtain ⟨hdst, hcount⟩ := h.destination hi
  rw [State.dstFits, State.dstFits, hdst, hcount, h.outSize]

/-! ## The blocks and the advances -/

/-- The blocks of a kernel and a round count are the same in the two states. -/
theorem blockAt_of_sameOperands (k : Vector Word 8) (r : Nat) : u.blockAt k r = s.blockAt k r :=
  blockAt_congr h.posOrder k r

/-- SKIP and MOCK read the locale and N (41_locale R138, R139). -/
theorem locale_and_n_of_advance (hi : i = .skip ∨ i = .mock) : u.locale = s.locale ∧ u.n = s.n := by
  obtain ⟨hlo, hhi⟩ := h.count hi
  refine ⟨h.locale ?_, by rw [State.n, State.n, hlo, hhi]⟩
  rcases hi with rfl | rfl <;> exact ⟨by decide, by simp⟩

/-- SKIP and MOCK write the locale they are given alike, or overflow alike (41_locale R137). -/
theorem agree_advanceTo (hi : i = .skip ∨ i = .mock) (o : Option Machine.Locale) :
    Agree i s (advanceTo o s) (advanceTo o u) := by
  cases o with
  | none => exact agree_raise h (by decide)
  | some l =>
    refine ⟨_, _, rfl, rfl, rfl, fun _ => ?_, h.quarterState, ?_, ?_⟩
    · simp
    · rcases hi with rfl | rfl <;> simp
    · rcases hi with rfl | rfl <;> exact fun _ hf => absurd hf (by decide)

end

/-! ## The fills -/

/-- Two fills that leave the same locale and the same bytes over the destination of `s` succeed with the same results,
whatever else they leave. -/
theorem agree_fill {i : Instr} {s v v' : State} (hi : i ∈ fills.map Prod.fst) (hl : v'.locale = v.locale)
    (hm : ∀ x, s.dst.toNat ≤ x → x < s.dst.toNat + s.count.toNat * elementSize i →
      v'.mem.find? x = v.mem.find? x) :
    Agree i s (succeed v) (succeed v') := by
  refine ⟨_, _, rfl, rfl, rfl, fun _ => hl, ?_, ?_, fun _ _ x hlo hhi => ?_⟩
  · rintro ⟨a, b, c, d, hq⟩
    exact absurd hq ((usesLocale_of_fill hi).2 a b c d)
  · rintro - (rfl | rfl) <;> exact absurd hi (by decide)
  · simp only [State.byte, State.complete_mem, hm x hlo hhi]

/-- Stored blocks read the same over their bytes, whatever the memory held before. -/
theorem find?_fillBlocks_congr (block : Nat → Block) {i n a x : Nat} (m m' : Memory) (hlo : a ≤ x) (hhi : x < a + n) :
    (fillBlocks block (blocksFor n) i n a m').find? x = (fillBlocks block (blocksFor n) i n a m).find? x := by
  obtain ⟨j, rfl⟩ := Nat.exists_eq_add_of_le hlo
  have hj : j < n := by omega
  have hb : n ≤ 64 * blocksFor n := by unfold blocksFor; omega
  rw [find?_fillBlocks_inside _ _ _ _ _ _ _ hj hb, find?_fillBlocks_inside _ _ _ _ _ _ _ hj hb]

/-- Stored integers read the same over their bytes, whatever the memory held before. -/
theorem find?_writeInts_congr (ms : List Nat) {a n x : Nat} (mn : Int) (m m' : Memory) (hlo : a ≤ x)
    (hhi : x < a + ms.length * n) : (m'.writeInts a n mn ms).find? x = (m.writeInts a n mn ms).find? x := by
  obtain ⟨j, rfl⟩ := Nat.exists_eq_add_of_le hlo
  have hj : j < ms.length * n := by omega
  have hn : 0 < n := Nat.pos_of_mul_pos_left (Nat.zero_lt_of_lt hj)
  have he : j / n < ms.length := Nat.div_lt_of_lt_mul (by rwa [Nat.mul_comm])
  have hplace : a + j = a + j / n * n + j % n := by rw [Nat.add_assoc, Nat.div_add_mod']
  rw [hplace, Memory.find?_writeInts_inside ms m' a n mn _ _ he (Nat.mod_lt _ hn),
    Memory.find?_writeInts_inside ms m a n mn _ _ he (Nat.mod_lt _ hn)]

/-- The sampling fills store the same accepted values alike, or run out of blocks alike (42_sampling R164, R172). -/
theorem agree_storeSamples {i : Instr} {s u : State} (h : SameOperands i s u) (hi : i ∈ fills.map Prod.fst) (mn : Int)
    {o : Option (List Nat × Nat)} (hlen : ∀ ms j, o = some (ms, j) → ms.length = s.count.toNat) :
    Agree i s (storeSamples s (elementSize i) mn o) (storeSamples u (elementSize i) mn o) := by
  obtain ⟨hdst, -⟩ := h.destination hi
  match o with
  | none =>
    exact ⟨_, _, rfl, rfl, rfl, h.locale, h.quarterState, fun hok => absurd hok (by simp),
      fun hok => absurd hok (by simp)⟩
  | some (ms, j) =>
    refine agree_fill hi (by simp) fun x hlo hhi => ?_
    rw [← hlen ms j rfl] at hhi
    simp only [State.setLocale_mem, hdst]
    exact find?_writeInts_congr ms mn _ _ hlo hhi

/-- FILLB gives the same results from the same operands (42_sampling R155). -/
theorem agree_fillb {s u : State} (h : SameOperands .fillb s u) : Agree .fillb s (execFillb s) (execFillb u) := by
  have hi : Instr.fillb ∈ fills.map Prod.fst := by decide
  obtain ⟨hdst, hcount⟩ := h.destination hi
  refine agree_validated h (by decide) fun k r => ?_
  simp only [dstFits_of_sameOperands h hi, blockAt_of_sameOperands h, h.locale (usesLocale_of_fill hi), hdst, hcount]
  split
  · exact agree_raise h (by decide)
  · split
    · exact agree_raise h (by decide)
    · refine agree_fill hi (by simp) fun x hlo hhi => find?_fillBlocks_congr _ _ _ hlo ?_
      rwa [elementSize, Nat.mul_one] at hhi

/-- FILLI of each width gives the same results from the same operands (42_sampling R161). -/
theorem agree_fillInts {i : Instr} {s u : State} {w : Nat} (h : SameOperands i s u)
    (hi : i ∈ samplingFills.map Prod.fst) (hw : w / 8 = elementSize i) :
    Agree i s (fillInts w s) (fillInts w u) := by
  have hf := mem_fills_of_sampling hi
  obtain ⟨hmin, hmax⟩ := h.bounds hi
  obtain ⟨-, hcount⟩ := h.destination hf
  refine agree_validated h (mem_transformCommands_of_fill i hf) fun k r => ?_
  simp only [dstFits_of_sameOperands h hf, blockAt_of_sameOperands h, h.locale (usesLocale_of_fill hf), hmin, hmax,
    hcount, hw]
  split
  · exact agree_raise h (by decide)
  · split
    · exact agree_raise h (by decide)
    · exact agree_storeSamples h hf _ fun ms j ho => (sampleDraws_spec ho).1

/-- FILLBIG gives the same results from the same operands (42_sampling R171). -/
theorem agree_fillbig {s u : State} (h : SameOperands .fillbig s u) :
    Agree .fillbig s (execFillbig s) (execFillbig u) := by
  have hf : Instr.fillbig ∈ fills.map Prod.fst := by decide
  obtain ⟨hmin, hmax⟩ := h.bounds (by decide)
  obtain ⟨-, hcount⟩ := h.destination hf
  refine agree_validated h (by decide) fun k r => ?_
  simp only [dstFits_of_sameOperands h hf, blockAt_of_sameOperands h, h.locale (usesLocale_of_fill hf), hmin, hmax,
    hcount]
  split
  · exact agree_raise h (by decide)
  · split
    · exact agree_raise h (by decide)
    · split
      · exact agree_raise h (by decide)
      · exact agree_storeSamples h hf _ fun ms j ho => (sampleBlocks_spec ho).1

/-! ## The other commands -/

/-- BLOCK gives the same results from the same operands (40_block_core R107). -/
theorem agree_block {s u : State} (h : SameOperands .block s u) : Agree .block s (execBlock s) (execBlock u) := by
  refine agree_validated h (by decide) fun k r => ?_
  simp only [blockAt_of_sameOperands h, h.locale ⟨by decide, by simp⟩]
  split
  · exact agree_raise h (by decide)
  · exact ⟨_, _, rfl, rfl, rfl, fun _ => by simp, by simp, fun _ _ => rfl, fun _ hf => absurd hf (by decide)⟩

/-- BLOCKRAW gives the same results from the same operands (40_block_core R108). -/
theorem agree_blockraw {s u : State} (h : SameOperands .blockraw s u) :
    Agree .blockraw s (execBlockraw s) (execBlockraw u) := by
  refine agree_validated h (by decide) fun k r => ?_
  rw [h.position rfl]
  exact ⟨_, _, rfl, rfl, rfl, h.locale, by simp, fun _ _ => rfl, fun _ hf => absurd hf (by decide)⟩

/-- QROUND gives the same S from the same S (40_block_core R109). -/
theorem agree_qround {a b c d : BitVec 4} {s u : State} (h : SameOperands (.qround a b c d) s u) :
    Agree (.qround a b c d) s (execQround a b c d s) (execQround a b c d u) := by
  unfold execQround
  rw [h.quarterState ⟨a, b, c, d, rfl⟩]
  exact ⟨_, _, rfl, rfl, rfl, h.locale, fun _ => rfl, by simp, fun _ hf => by simp [fills] at hf⟩

/-- Every command gives the same results in two states that agree on its operands (00_scope R7). -/
theorem agree_exec {i : Instr} {s u : State} (h : SameOperands i s u) : Agree i s (exec i s) (exec i u) := by
  cases i with
  | block => exact agree_block h
  | blockraw => exact agree_blockraw h
  | skip =>
    obtain ⟨hl, hn⟩ := locale_and_n_of_advance h (.inl rfl)
    show Agree _ s (advanceTo (s.locale.skip s.n) s) (advanceTo (u.locale.skip u.n) u)
    rw [hl, hn]
    exact agree_advanceTo h (.inl rfl) _
  | mock =>
    obtain ⟨hl, hn⟩ := locale_and_n_of_advance h (.inr rfl)
    show Agree _ s (advanceTo (s.locale.mock s.n) s) (advanceTo (u.locale.mock u.n) u)
    rw [hl, hn]
    exact agree_advanceTo h (.inr rfl) _
  | fillb => exact agree_fillb h
  | filli8 => exact agree_fillInts h (by decide) rfl
  | filli16 => exact agree_fillInts h (by decide) rfl
  | filli32 => exact agree_fillInts h (by decide) rfl
  | filli64 => exact agree_fillInts h (by decide) rfl
  | fillbig => exact agree_fillbig h
  | qround a b c d => exact agree_qround h

/-- Settles O23: the outcomes from the two states are completions with the same results. -/
theorem outcomeDependsOnOperandsAlone : Obligations.OutcomeDependsOnOperandsAlone := by
  intro i s u t h ht
  obtain ⟨t₀, t', h₀, ht', hr⟩ := agree_exec h
  obtain rfl : t = t₀ := by rw [ht] at h₀; cases h₀; rfl
  refine ⟨t', ht', hr.err, hr.locale, hr.quarterState, hr.block, ?_⟩
  rintro hok p hp rfl x hlo hhi
  rw [elementSize_of_mem_fills p hp] at hhi
  exact hr.destination hok (List.mem_map_of_mem hp) x hlo hhi

end Sys2Proof.Proofs
end

section
/-!
SUPPORT. The host's register port (spec/10_state.md R20 to R34, R42, R43): one rule for each answer to a write and to a
read, and the register map.
-/

namespace Sys2Proof.Proofs

open Machine Claim

/-! ## The rules of the port -/

/-- A write while BUSY is dropped (10_state R42). -/
theorem hostWriteReg_of_busy {s : State} (h : s.busy = true) (ri : BitVec 8) (v : Word) : hostWriteReg ri v s = s := by
  simp [hostWriteReg, h]

/-- A write while idle to an index of the map is the register's idle write. -/
theorem hostWriteReg_of_idle {s : State} (h : s.busy = false) {ri : BitVec 8} {r : Reg} (hr : Reg.atIndex ri = some r)
    (v : Word) : hostWriteReg ri v s = s.writeIdle v r := by
  simp [hostWriteReg, h, hr]

/-- A register whose idle write changes nothing is read-only: no write to its index has any effect (10_state R22). -/
theorem hostWriteReg_of_readOnly {s : State} {v : Word} {r : Reg} (h : s.writeIdle v r = s) :
    hostWriteReg r.index v s = s := by
  cases hb : s.busy with
  | true => exact hostWriteReg_of_busy hb _ _
  | false => rw [hostWriteReg_of_idle hb (Reg.atIndex_index r), h]

/-- A write to an unmapped index is ignored (10_state R22). -/
theorem hostWriteReg_of_unmapped {ri : BitVec 8} (h : Reg.atIndex ri = none) (v : Word) (s : State) :
    hostWriteReg ri v s = s := by
  simp [hostWriteReg, h]

/-- A read of an unmapped index gives 0 (10_state R22). -/
theorem hostReadReg_of_unmapped {ri : BitVec 8} (h : Reg.atIndex ri = none) (s : State) :
    hostReadReg ri s = { s with got := .reg ri 0 :: s.got } := by
  simp [hostReadReg, h]

/-- A read of a register that the running command may write gives a free word (10_state R43). -/
theorem got_hostReadReg_of_unstable {s : State} {r : Reg} (h : s.unstable r = true) :
    (hostReadReg r.index s).got = .reg r.index (Config.freeWord s.fresh) :: s.got := by
  simp [hostReadReg, h]

/-- A read of any other register gives the stored word (10_state R43). -/
theorem got_hostReadReg_of_stable {s : State} {r : Reg} (h : s.unstable r = false) :
    (hostReadReg r.index s).got = .reg r.index (s.readStored r) :: s.got := by
  simp [hostReadReg, h]

/-! ## What runs -/

/-- A busy core runs the command that the word in CMD decodes to (10_state R23). -/
theorem running_of_ok {s : State} {i : Instr} (hb : s.busy = true) (hd : decode s.cmd = .ok i) :
    s.running = some i := by
  simp [State.running, hb, hd]

/-- A busy core with an illegal word in CMD runs no command. -/
theorem running_of_error {s : State} {w : IllegalWord} (hb : s.busy = true) (hd : decode s.cmd = .error w) :
    s.running = none := by
  simp [State.running, hb, hd]

/-- While a command runs, the registers it may write are the unstable ones (10_state R43). -/
theorem unstable_of_running {s : State} {i : Instr} (h : s.running = some i) (r : Reg) :
    s.unstable r = mayWrite i r := by
  simp [State.unstable, h]

/-- While no command runs, no register is unstable. -/
theorem unstable_of_not_running {s : State} (h : s.running = none) (r : Reg) : s.unstable r = false := by
  simp [State.unstable, h]

/-- The locale registers, listed. -/
theorem isLocale_iff (r : Reg) : r.isLocale = true ↔ r ∈ [Reg.pebbleLo, .pebbleHi, .streamLo, .streamHi] := by
  cases r <;> simp [Reg.isLocale]

/-- The block registers, listed. -/
theorem isBlk_iff (r : Reg) : r.isBlk = true ↔ ∃ j, r = .blk j := by
  cases r <;> simp [Reg.isBlk]

/-- The quarter-round registers, listed. -/
theorem isSreg_iff (r : Reg) : r.isSreg = true ↔ ∃ j, r = .sreg j := by
  cases r <;> simp [Reg.isSreg]

/-- The W entries of 10_state R35, register by register: the commands that may write it. -/
theorem mayWrite_iff (i : Instr) (r : Reg) : mayWrite i r = true ↔
    (r.isLocale = true ∧ UsesLocale i) ∨ (r.isBlk = true ∧ (i = .block ∨ i = .blockraw)) ∨
      (r.isSreg = true ∧ ∃ a b c d, i = .qround a b c d) := by
  cases i <;> simp [mayWrite, UsesLocale]

/-- No command writes a KEY register (10_state R35). -/
theorem mayWrite_key (i : Instr) (j : Fin 8) : mayWrite i (.key j) = false := by
  cases i <;> rfl

/-! ## The register map -/

/-- The register found at an index is the one whose index it is, at each of the 256 indices (10_state R21). -/
theorem index_of_mem_atIndex : ∀ ri : BitVec 8, ∀ r ∈ Reg.atIndex ri, r.index = ri := by decide

/-- Settles O49: the map and its inverse, and the index of each register as a number. -/
theorem registerMapIsOneToOne : Obligations.RegisterMapIsOneToOne := by
  refine ⟨Reg.atIndex_index, index_of_mem_atIndex, rfl, ?_, ?_, ?_, ?_, ?_, ?_⟩ <;> decide

/-- The unmapped indices, among all 256 (10_state R21). -/
theorem atIndex_eq_none_iff : ∀ ri : BitVec 8, Reg.atIndex ri = none ↔
    (0x18#8 ≤ ri ∧ ri ≤ 0x1F#8) ∨ (0x51#8 ≤ ri ∧ ri ≤ 0x5F#8) ∨ 0x71#8 ≤ ri := by decide

/-- An index of BLK0..BLK15's range is one of theirs (10_state R21). -/
theorem exists_blk_index {ri : BitVec 8} (h : 0x20#8 ≤ ri ∧ ri ≤ 0x2F#8) : ∃ i, (Reg.blk i).index = ri := by
  simp only [BitVec.le_def, BitVec.reduceToNat] at h
  refine ⟨⟨ri.toNat - 0x20, by omega⟩, BitVec.eq_of_toNat_eq ?_⟩
  simp [Reg.index]
  omega

/-- Settles O52: the port ignores unmapped indices, and STATUS, ERR and BLK are read-only. -/
theorem unmappedAndReadOnlyAccessesHaveNoEffect : Obligations.UnmappedAndReadOnlyAccessesHaveNoEffect := by
  refine ⟨?_, fun s ri h => hostReadReg_of_unmapped h s, atIndex_eq_none_iff⟩
  rintro s ri v (h | rfl | rfl | h)
  · exact hostWriteReg_of_unmapped h v s
  · exact hostWriteReg_of_readOnly (r := .status) rfl
  · exact hostWriteReg_of_readOnly (r := .err) rfl
  · obtain ⟨i, rfl⟩ := exists_blk_index h
    exact hostWriteReg_of_readOnly rfl

/-! ## Writes to an idle core -/

/-- A register that the host can write and read back: not CMD, the read-only ones or KEY (10_state R21). -/
def ReadWrite (r : Reg) : Prop :=
  r ≠ .cmd ∧ r ≠ .status ∧ r ≠ .err ∧ (∀ i, r ≠ .key i) ∧ ∀ i, r ≠ .blk i

/-- A vector after one word of it was set, word by word. -/
theorem getElem_set_fin {α : Type} {n : Nat} (x : Vector α n) (i j : Fin n) (v : α) :
    (x.set i v)[j] = if j = i then v else x[j] := by
  simp [Vector.getElem_set, Fin.ext_iff, eq_comm]

/-- What each register reads as after the idle write of a read-write register: the word written there, and the word it
held elsewhere. -/
theorem readStored_writeIdle {r : Reg} (h : ReadWrite r) (s : State) (v : Word) (q : Reg) :
    (s.writeIdle v r).readStored q = if q = r then v else s.readStored q := by
  obtain ⟨hcmd, hstatus, herr, hkey, hblk⟩ := h
  cases r with
  | cmd | status | err | key i | blk i => simp at hcmd hstatus herr hkey hblk
  | rounds | pebbleLo | pebbleHi | streamLo | streamHi | nLo | nHi | dst | count => cases q <;> rfl
  | pos i =>
    cases q with
    | pos j => simpa [State.writeIdle, State.readStored] using getElem_set_fin s.pos i j v
    | _ => rfl
  | sreg i =>
    cases q with
    | sreg j => simpa [State.writeIdle, State.readStored] using getElem_set_fin s.sreg i j v
    | _ => rfl
  | min i =>
    cases q with
    | min j => simpa [State.writeIdle, State.readStored] using getElem_set_fin s.minWords i j v
    | _ => rfl
  | max i =>
    cases q with
    | max j => simpa [State.writeIdle, State.readStored] using getElem_set_fin s.maxWords i j v
    | _ => rfl

/-- The idle write of a read-write register leaves the kernel and BUSY alone. -/
theorem writeIdle_key_busy {r : Reg} (h : ReadWrite r) (s : State) (v : Word) :
    (s.writeIdle v r).key = s.key ∧ (s.writeIdle v r).busy = s.busy := by
  obtain ⟨hcmd, -, -, hkey, -⟩ := h
  cases r with
  | cmd => exact absurd rfl hcmd
  | key i => exact absurd rfl (hkey i)
  | _ => exact ⟨rfl, rfl⟩

/-- Settles O50: the write is the register's idle write, and what each register reads as after it is known. -/
theorem idleWriteChangesOneRegister : Obligations.IdleWriteChangesOneRegister := by
  intro s r v hb hcmd hstatus herr hkey hblk
  have hrw : ReadWrite r := ⟨hcmd, hstatus, herr, hkey, hblk⟩
  obtain ⟨hk, hbusy⟩ := writeIdle_key_busy hrw s v
  obtain ⟨hmem, -⟩ := writeIdle_frame s v r
  rw [hostWriteReg_of_idle hb (Reg.atIndex_index r)]
  refine ⟨?_, fun q hq => ?_, hk, hmem, hbusy⟩
  · rw [readStored_writeIdle hrw, if_pos rfl]
  · rw [readStored_writeIdle hrw, if_neg hq]

/-- Settles O51: the write sets one word of the kernel, and KEYMASK's bits say which words are loaded. -/
theorem keyWriteLoadsWordAndMaskBit : Obligations.KeyWriteLoadsWordAndMaskBit := by
  intro s i v hb
  have hw : hostWriteReg (Reg.key i).index v s = { s with key := s.key.set i (some v) } :=
    hostWriteReg_of_idle hb (Reg.atIndex_index (.key i)) v
  have hu : ∀ u : State, u.unstable (.key i) = false := fun u => by
    cases h : u.running with
    | none => exact unstable_of_not_running h _
    | some j => rw [unstable_of_running h, mayWrite_key]
  rw [show 0x10#8 + BitVec.ofNat 8 i.val = (Reg.key i).index from rfl, hw]
  refine ⟨?_, fun j hj => ?_, fun j => ?_, rfl, fun u => got_hostReadReg_of_stable (hu u)⟩
  · rw [getElem_set_fin, if_pos rfl]
  · rw [getElem_set_fin, if_neg hj]
  · rw [State.getLsbD_keyMask, State.getLsbD_keyMask, getElem_set_fin]
    by_cases h : j = i <;> simp [h]

/-! ## What a read gives -/

/-- STATUS as a number: BUSY in bit 0 and KEYMASK in bits 15:8 (10_state R27). -/
theorem toNat_statusWord (s : State) : s.statusWord.toNat = 256 * s.keyMask.toNat + s.busy.toNat := by
  simp only [State.statusWord, toNat_append_eq, BitVec.toNat_ofBool, BitVec.toNat_ofNat]
  omega

/-- ERR as a number: the code of the last error kind (10_state R28). -/
theorem toNat_errWord (s : State) : s.errWord.toNat = s.err.code.toNat := by
  rw [State.errWord, toNat_append_eq, BitVec.toNat_ofNat]
  simp

/-- Settles O54: a read follows `unstable`, which follows what the running command may write. -/
theorem readsWhileBusyFollowTheRunningCommand : Obligations.ReadsWhileBusyFollowTheRunningCommand := by
  intro s r loc written
  have hw : ∀ i, mayWrite i r = true ↔ written i := fun i => by
    rw [mayWrite_iff, isLocale_iff, isBlk_iff, isSreg_iff]
    exact Iff.rfl
  have he : ∀ e, (State.readStored { s with err := e } .err).toNat = e.code.toNat := fun e => toNat_errWord _
  refine ⟨fun i hb hd h => ?_, fun i hb hd h => ?_, fun w hb hd => ?_, fun hb => ?_, toNat_statusWord s, ?_⟩
  · apply got_hostReadReg_of_unstable
    rw [unstable_of_running (running_of_ok hb hd), hw]
    exact h
  · apply got_hostReadReg_of_stable
    rw [unstable_of_running (running_of_ok hb hd), Bool.eq_false_iff, ne_eq, hw]
    exact h
  · exact got_hostReadReg_of_stable (unstable_of_not_running (running_of_error hb hd) r)
  · exact got_hostReadReg_of_stable (unstable_of_not_running (State.running_of_idle hb) r)
  · simp only [he]
    decide

/-- Stored words depend on the kernel through KEYMASK alone (60_exceptions R200). -/
theorem readStored_key_congr {s : State} {key' : Vector (Option Word) 8}
    (h : State.keyMask { s with key := key' } = s.keyMask) (r : Reg) :
    State.readStored { s with key := key' } r = s.readStored r := by
  cases r with
  | status =>
    show State.statusWord _ = _
    rw [State.statusWord, h]
    rfl
  | _ => rfl

/-- Settles O55: which registers are unstable has nothing to do with the kernel, and stored words show KEYMASK alone. -/
theorem kernelWordsAreUnreadable : Obligations.KernelWordsAreUnreadable := by
  intro s key' ri h
  cases hr : Reg.atIndex ri with
  | none => rw [hostReadReg_of_unmapped hr, hostReadReg_of_unmapped hr]
  | some r =>
    obtain rfl := index_of_mem_atIndex ri r hr
    have hu : State.unstable { s with key := key' } r = s.unstable r := rfl
    cases hs : s.unstable r with
    | true => rw [got_hostReadReg_of_unstable (hu.trans hs), got_hostReadReg_of_unstable hs]
    | false => rw [got_hostReadReg_of_stable (hu.trans hs), got_hostReadReg_of_stable hs, readStored_key_congr h]

/-! ## The values after reset -/

/-- Settles O59: each register by itself; STATUS and ERR too hold nothing but zeros. -/
theorem resetValuesAreTheSpecs : Obligations.ResetValuesAreTheSpecs := by
  refine ⟨fun r => ?_, rfl, rfl, rfl, rfl, by decide⟩
  cases r with
  | pos i => revert i; decide
  | blk i | sreg i | min i | max i => exact Vector.getElem_replicate _
  | _ => rfl

end Sys2Proof.Proofs
end

section
/-!
SUPPORT. What a step does (spec/10_state.md R23, R27, R40, R42 to R44, spec/20_memory.md R63, R70): the core's move, which
completes every command, the host's moves on a busy and on an idle core, and the moves that stop the machine.
-/

namespace Sys2Proof.Proofs

open Machine Claim

/-! ## The core's move -/

/-- When the core moves next, a step is its move, and taking the move off the list leaves all but the list alone. -/
theorem step_of_coreNext {s s' : State} (h : CoreNext s s') :
    step s = coreMove s' ∧ s'.busy = s.busy ∧ s'.cmd = s.cmd ∧ s'.raced = s.raced := by
  rcases h with ⟨hm, rfl⟩ | ⟨ms, hm, rfl⟩
  · exact ⟨step_of_nil hm, rfl, rfl, rfl⟩
  · exact ⟨step_of_cons hm, rfl, rfl, rfl⟩

/-- When the core moves next and is busy, the step leaves a completed command with its races settled. -/
theorem step_of_busy_coreNext {s s' : State} (h : CoreNext s s') (hb : s.busy = true) :
    ∃ u, step s = .next u.settleRaces ∧ Completed s' u ∧ u.raced = s.raced := by
  obtain ⟨hstep, hbusy, -, hraced⟩ := step_of_coreNext h
  obtain ⟨u, hu, hc, -⟩ := coreMove_of_busy (hbusy.trans hb)
  exact ⟨u, hstep.trans hu, hc, hc.raced.trans hraced⟩

/-- The core's move never stops the machine. -/
theorem coreMove_goes_on (s : State) : ∃ t, coreMove s = .next t := by
  cases hb : s.busy with
  | false => exact ⟨s, coreMove_of_idle hb⟩
  | true =>
    obtain ⟨t, ht, -⟩ := coreMove_of_busy hb
    exact ⟨_, ht⟩

/-- On an idle core a turn of WAIT reads STATUS and ends the loop (30_encoding R88). -/
theorem step_of_wait_idle {s : State} (hb : s.busy = false) {n : Nat} {ms : List Move} (hm : s.moves = .wait n :: ms) :
    step s = .next { s with moves := ms, got := .reg 0x01 s.statusWord :: s.got } := by
  rw [step_of_cons hm, makeMove, hostWait_of_idle (s := { s with moves := ms }) hb]
  rfl

/-- On a busy core a turn of WAIT reads STATUS and goes on with the loop (30_encoding R88; log entry 17). -/
theorem step_of_wait_busy {s : State} (hb : s.busy = true) {n : Nat} {ms : List Move} (hm : s.moves = .wait n :: ms) :
    step s = .next { s with moves := Machine.wait n ++ ms, got := .reg 0x01 s.statusWord :: s.got } := by
  rw [step_of_cons hm, makeMove, hostWait_of_busy (s := { s with moves := ms }) hb]
  rfl

/-- Settles O6: the core's move and the move on the list, with the two ways a turn of WAIT ends. -/
theorem stepRunsDecodedCommand : Obligations.StepRunsDecodedCommand := by
  refine ⟨?_, fun t h => ?_, fun t => rfl, ?_⟩
  · intro s s' i h hb hd
    obtain ⟨hstep, hbusy, hcmd, -⟩ := step_of_coreNext h
    rw [hstep, coreMove_of_ok (hbusy.trans hb) (hcmd ▸ hd)]
  · rw [settle, State.settleRaces_of_nil t h]
  · intro s ms u
    refine ⟨fun ri v hm => step_of_cons hm, fun ri hm => step_of_cons hm, fun a b hm => step_of_cons hm,
      fun a hm => step_of_cons hm, fun hm => step_of_cons hm,
      fun n hm => ⟨fun hb => step_of_wait_idle hb hm, fun hb => step_of_wait_busy hb hm⟩⟩

/-- Settles O10: legal or not, the command completes, and the settling of races empties their list. -/
theorem coreMoveCompletesEveryCommand : Obligations.CoreMoveCompletesEveryCommand := by
  intro s s' h hb
  obtain ⟨u, hstep, hc, -⟩ := step_of_busy_coreNext h hb
  exact ⟨_, hstep, hc.busy, rfl, hc.moves⟩

/-! ## The host's register writes -/

/-- A host write to a register while idle is that register's idle write. -/
theorem step_of_idle_write {s : State} {r : Reg} {v : Word} {ms : List Move} (hb : s.busy = false)
    (hm : s.moves = wr r v :: ms) : step s = .next (State.writeIdle { s with moves := ms } v r) :=
  (step_of_cons hm).trans
    (congrArg Host.Outcome.next (hostWriteReg_of_idle (s := { s with moves := ms }) hb (Reg.atIndex_index r) v))

/-- Settles O8: a CMD write is the idle write of register CMD. -/
theorem cmdWriteWhileIdleStartsCommand : Obligations.CmdWriteWhileIdleStartsCommand := by
  intro s c ms hb hm
  exact step_of_idle_write (r := .cmd) hb hm

/-- Settles O9: the write is dropped, whatever its index. -/
theorem registerWritesWhileBusyAreDropped : Obligations.RegisterWritesWhileBusyAreDropped := by
  intro s ri v ms hb hm
  rw [step_of_cons hm, makeMove, hostWriteReg_of_busy (s := { s with moves := ms }) hb]

/-! ## The host's reads -/

/-- Settles O53: a read of either port only gives the host its data. -/
theorem readsChangeNoState : Obligations.ReadsChangeNoState := by
  refine ⟨fun s ri ms hm => ?_, fun s a ms ha hm => ?_⟩
  · obtain ⟨v, f, h⟩ := hostReadReg_cases ri { s with moves := ms }
    exact ⟨v, f, by rw [step_of_cons hm, makeMove, h]⟩
  · rw [step_of_cons hm, makeMove]
    rcases hostReadMem_cases a { s with moves := ms } with ⟨hout, -⟩ | ⟨-, -, h⟩ | ⟨-, -, h⟩
    · exact absurd ha (Nat.not_lt.mpr hout)
    · exact ⟨_, _, h⟩
    · exact ⟨_, s.fresh, h⟩

/-! ## The moves that stop the machine -/

/-- A move goes on, or is a host access to a byte outside the output memory, which faults (20_memory R63). -/
theorem makeMove_cases (m : Move) (s : State) :
    (∃ t, makeMove m s = .next t) ∨
      ∃ a, s.outSize ≤ a ∧ ((∃ b, m = .writeMem a b) ∨ m = .readMem a) ∧
        makeMove m s = .fault (.hostAddressAbsent a) := by
  cases m with
  | writeReg | readReg | wait | reset => exact .inl ⟨_, rfl⟩
  | core => exact .inl (coreMove_goes_on s)
  | writeMem a b =>
    rcases hostWriteMem_cases a b s with ⟨hout, h⟩ | ⟨-, -, h⟩ | ⟨-, -, h⟩
    · exact .inr ⟨a, hout, .inl ⟨b, rfl⟩, h⟩
    · exact .inl ⟨_, h⟩
    · exact .inl ⟨_, h⟩
  | readMem a =>
    rcases hostReadMem_cases a s with ⟨hout, h⟩ | ⟨-, -, h⟩ | ⟨-, -, h⟩
    · exact .inr ⟨a, hout, .inr rfl, h⟩
    · exact .inl ⟨_, h⟩
    · exact .inl ⟨_, h⟩

/-- A step goes on, or its move is a host access to a byte outside the output memory, which faults. -/
theorem step_cases (s : State) :
    (∃ t, step s = .next t) ∨
      ∃ a ms, s.outSize ≤ a ∧ ((∃ b, s.moves = .writeMem a b :: ms) ∨ s.moves = .readMem a :: ms) ∧
        step s = .fault (.hostAddressAbsent a) := by
  cases hm : s.moves with
  | nil =>
    rw [step_of_nil hm]
    exact .inl (coreMove_goes_on s)
  | cons m ms =>
    rw [step_of_cons hm]
    rcases makeMove_cases m { s with moves := ms } with h | ⟨a, hout, ⟨b, rfl⟩ | rfl, h⟩
    · exact .inl h
    · exact .inr ⟨a, ms, hout, .inl ⟨b, rfl⟩, h⟩
    · exact .inr ⟨a, ms, hout, .inr rfl, h⟩

/-- Settles O12: a step goes on or has the one fault, and an access outside the output memory does have it. -/
theorem onlyAbsentHostAddressesStopTheMachine : Obligations.OnlyAbsentHostAddressesStopTheMachine := by
  refine ⟨fun s f hf => ?_, fun s r hr => ?_, fun s a b ms ha hm => ?_⟩
  · rcases step_cases s with ⟨t, h⟩ | ⟨a, ms, hout, hm, h⟩ <;> rw [hf] at h <;> cases h
    exact ⟨a, rfl, hout, ms, hm⟩
  · rcases step_cases s with ⟨t, h⟩ | ⟨a, ms, -, -, h⟩ <;> rw [hr] at h <;> cases h
  · rcases hm with hm | hm <;> rw [step_of_cons hm]
    · exact if_pos ha
    · exact if_pos ha

/-! ## Races -/

/-- Each listed address made any value reads as a free byte. -/
theorem find?_setFreeAt_inside (as : List Nat) (m : Memory) {x : Nat} (f : Nat) (h : x ∈ as) :
    ∃ n, (m.setFreeAt as f).find? x = some (Config.freeByte n) := by
  induction as generalizing m f with
  | nil => exact absurd h List.not_mem_nil
  | cons a as ih =>
    by_cases hx : x ∈ as
    · exact ih _ _ hx
    · obtain rfl := (List.mem_cons.mp h).resolve_right hx
      exact ⟨f, by rw [Memory.setFreeAt, Memory.find?_setFreeAt_outside _ _ hx, Memory.find?_write_same]⟩

/-- Settles O57: the memory port frees what it reads in the destination and lists what it writes there, and the listed
bytes are free once the command has completed. -/
theorem racesInTheDestinationGiveAnyValue : Obligations.RacesInTheDestinationGiveAnyValue := by
  refine ⟨fun s a ms ha hd hm => ?_, fun s a b ms ha hd hm => ?_, fun s s' t a hn hb ht ha => ?_⟩
  · rw [step_of_cons hm]
    exact ⟨s.fresh, s.fresh + 1, (if_neg (Nat.not_le.mpr ha)).trans (if_pos hd)⟩
  · rw [step_of_cons hm]
    refine ⟨_, (if_neg (Nat.not_le.mpr ha)).trans (if_pos hd), ?_, fun x => mem_insertAddress, rfl⟩
    exact mem_insertAddress.mpr (.inl rfl)
  · obtain ⟨u, hu, -, hraced⟩ := step_of_busy_coreNext hn hb
    obtain rfl : u.settleRaces = t := by rw [hu] at ht; cases ht; rfl
    obtain ⟨n, hfind⟩ := find?_setFreeAt_inside u.raced u.mem u.fresh (hraced ▸ ha)
    exact ⟨n, by rw [State.byte, State.settleRaces_mem, hfind, Option.getD_some]⟩

/-! ## Loaded kernel words -/

/-- Every kernel word loaded in `s` is loaded in `t`. -/
def KeepsLoaded (s t : State) : Prop := ∀ i : Fin 8, s.key[i].isSome = true → t.key[i].isSome = true

/-- The same kernel has the same words loaded. -/
theorem keepsLoaded_of_eq {s t : State} (h : t.key = s.key) : KeepsLoaded s t := fun i hi => by rwa [h]

/-- No write to a register unloads a kernel word: a KEY write loads one (10_state R26). -/
theorem writeIdle_keepsLoaded (s : State) (v : Word) (r : Reg) : KeepsLoaded s (s.writeIdle v r) := by
  cases r with
  | key j =>
    intro i hi
    show ((s.key.set j (some v))[i]).isSome = true
    rw [getElem_set_fin]
    split
    · rfl
    · exact hi
  | _ => exact keepsLoaded_of_eq rfl

/-- The core's move keeps the kernel (10_state R35). -/
theorem coreMove_key {s t : State} (h : coreMove s = .next t) : t.key = s.key := by
  rcases coreMove_next_cases h with rfl | ⟨u, rfl, hc, -⟩
  · rfl
  · exact hc.key

/-- Every move but a reset keeps the loaded kernel words loaded (10_state R27). -/
theorem makeMove_keepsLoaded {m : Move} {s t : State} (hm : m ≠ .reset) (h : makeMove m s = .next t) :
    KeepsLoaded s t := by
  cases m with
  | writeReg ri v =>
    cases h
    rcases hostWriteReg_cases ri v s with e | ⟨r, -, -, e⟩ <;> rw [e]
    · exact keepsLoaded_of_eq rfl
    · exact writeIdle_keepsLoaded s v r
  | readReg ri =>
    cases h
    obtain ⟨v, f, e⟩ := hostReadReg_cases ri s
    exact keepsLoaded_of_eq (by rw [e])
  | writeMem a b =>
    rw [makeMove] at h
    rcases hostWriteMem_cases a b s with ⟨-, e⟩ | ⟨-, -, e⟩ | ⟨-, -, e⟩ <;> rw [e] at h <;> cases h <;>
      exact keepsLoaded_of_eq rfl
  | readMem a =>
    rw [makeMove] at h
    rcases hostReadMem_cases a s with ⟨-, e⟩ | ⟨-, -, e⟩ | ⟨-, -, e⟩ <;> rw [e] at h <;> cases h <;>
      exact keepsLoaded_of_eq rfl
  | wait n =>
    cases h
    obtain ⟨g, ms, e⟩ := hostWait_cases n s
    exact keepsLoaded_of_eq (by rw [e])
  | reset => exact absurd rfl hm
  | core => exact keepsLoaded_of_eq (coreMove_key h)

/-- Settles O17: KEYMASK's bits are the loaded words, and every move but a reset keeps those loaded. -/
theorem onlyResetUnloadsKernelWords : Obligations.OnlyResetUnloadsKernelWords := by
  intro s t h hr i
  rw [State.getLsbD_keyMask, State.getLsbD_keyMask]
  rcases step_next_cases h with ⟨-, hc⟩ | ⟨m, ms, hms, hm⟩
  · exact keepsLoaded_of_eq (coreMove_key hc) i
  · have hne : m ≠ .reset := by rintro rfl; exact hr ms hms
    exact makeMove_keepsLoaded hne hm i

end Sys2Proof.Proofs
end

section
/-!
SUPPORT. The frame of every command: which registers, and whether the output memory, it may write (spec/10_state.md R35,
spec/20_memory.md R66).
-/

namespace Sys2Proof.Proofs

open Machine Claim

/-- `t`, in which command `i` of `s` completes, differs from `s` in BLK, S, the locale and the output memory only where
the command may write them (10_state R35, 20_memory R66). -/
structure WritesOnlyItsOwn (i : Instr) (s t : State) : Prop where
  blk : i ≠ .block → i ≠ .blockraw → t.blk = s.blk
  sreg : (∀ a b c d, i ≠ .qround a b c d) → t.sreg = s.sreg
  locale : ¬ UsesLocale i → t.locale = s.locale
  mem : i ∉ fills.map Prod.fst → t.mem = s.mem

/-- A command that only completes, as all errors but one do, writes none of its results (60_exceptions R194). -/
theorem writesOnlyItsOwn_complete (i : Instr) (s : State) (e : ErrorKind) : WritesOnlyItsOwn i s (s.complete e) :=
  ⟨fun _ _ => rfl, fun _ => rfl, fun _ => rfl, fun _ => rfl⟩

/-- Nor does a command that leaves all but the locale and the output memory alone, if it may write those. -/
theorem writesOnlyItsOwn_of_locale {i : Instr} {s t : State} (hi : UsesLocale i) (hblk : t.blk = s.blk)
    (hsreg : t.sreg = s.sreg) (hmem : i ∈ fills.map Prod.fst ∨ t.mem = s.mem) : WritesOnlyItsOwn i s t :=
  ⟨fun _ _ => hblk, fun _ => hsreg, fun h => absurd hi h, hmem.resolve_left⟩

/-- The shared end of an advance writes the locale alone (41_locale R137). -/
theorem advanceTo_writesOnlyItsOwn {i : Instr} {s t : State} {o : Option Machine.Locale} (hi : UsesLocale i)
    (h : advanceTo o s = .next t) : WritesOnlyItsOwn i s t := by
  rcases advanceTo_cases o s with ⟨-, h'⟩ | ⟨l, -, h'⟩ <;> rw [h'] at h <;> cases h
  · exact writesOnlyItsOwn_complete i s _
  · exact writesOnlyItsOwn_of_locale hi rfl rfl (.inr rfl)

/-- The shared end of a sampling fill writes the locale and the output memory alone (42_sampling R164, R172). -/
theorem storeSamples_writesOnlyItsOwn {i : Instr} {s t : State} {n : Nat} {mn : Int} {o : Option (List Nat × Nat)}
    (hi : i ∈ fills.map Prod.fst) (h : storeSamples s n mn o = .next t) : WritesOnlyItsOwn i s t := by
  rcases storeSamples_cases s n mn o with ⟨-, h'⟩ | ⟨ms, j, -, h'⟩ <;> rw [h'] at h <;> cases h <;>
    exact writesOnlyItsOwn_of_locale (usesLocale_of_fill hi) rfl rfl (.inl hi)

/-- FILLI of each width writes the locale and the output memory alone. -/
theorem fillInts_writesOnlyItsOwn {i : Instr} {s t : State} {w : Nat} (hi : i ∈ fills.map Prod.fst)
    (h : fillInts w s = .next t) : WritesOnlyItsOwn i s t := by
  rcases fillInts_cases w s with ⟨e, -, h'⟩ | ⟨k, -, -, -, h'⟩ <;> rw [h'] at h
  · cases h
    exact writesOnlyItsOwn_complete i s _
  · exact storeSamples_writesOnlyItsOwn hi h

/-- Every command writes only its own results (10_state R35). -/
theorem exec_writesOnlyItsOwn {i : Instr} {s t : State} (h : exec i s = .next t) : WritesOnlyItsOwn i s t := by
  cases i with
  | block =>
    rw [exec] at h
    rcases execBlock_cases s with ⟨e, -, h'⟩ | ⟨k, l, -, -, h'⟩ <;> rw [h'] at h <;> cases h
    · exact writesOnlyItsOwn_complete _ s _
    · exact ⟨fun hb => absurd rfl hb, fun _ => rfl, fun hl => absurd ⟨by decide, by simp⟩ hl, fun _ => rfl⟩
  | blockraw =>
    rw [exec] at h
    rcases execBlockraw_cases s with ⟨e, -, h'⟩ | ⟨k, -, h'⟩ <;> rw [h'] at h <;> cases h
    · exact writesOnlyItsOwn_complete _ s _
    · exact ⟨fun _ hb => absurd rfl hb, fun _ => rfl, fun _ => rfl, fun _ => rfl⟩
  | skip => exact advanceTo_writesOnlyItsOwn ⟨by decide, by simp⟩ h
  | mock => exact advanceTo_writesOnlyItsOwn ⟨by decide, by simp⟩ h
  | fillb =>
    rw [exec] at h
    rcases execFillb_cases s with ⟨e, -, h'⟩ | ⟨k, -, -, -, h'⟩ <;> rw [h'] at h <;> cases h
    · exact writesOnlyItsOwn_complete _ s _
    · exact writesOnlyItsOwn_of_locale ⟨by decide, by simp⟩ rfl rfl (.inl (by decide))
  | filli8 => exact fillInts_writesOnlyItsOwn (by decide) (w := 8) h
  | filli16 => exact fillInts_writesOnlyItsOwn (by decide) (w := 16) h
  | filli32 => exact fillInts_writesOnlyItsOwn (by decide) (w := 32) h
  | filli64 => exact fillInts_writesOnlyItsOwn (by decide) (w := 64) h
  | fillbig =>
    rw [exec] at h
    rcases execFillbig_cases s with ⟨e, -, h'⟩ | ⟨k, -, -, -, -, -, h'⟩ <;> rw [h'] at h
    · cases h
      exact writesOnlyItsOwn_complete _ s _
    · exact storeSamples_writesOnlyItsOwn (by decide) h
  | qround a b c d =>
    cases h
    exact ⟨fun _ _ => rfl, fun hq => absurd rfl (hq a b c d), fun _ => rfl, fun _ => rfl⟩

/-- Settles O18: what no command writes is what every completion keeps, and each command writes only its own results. -/
theorem commandsWriteOnlyTheirRegisters : Obligations.CommandsWriteOnlyTheirRegisters := by
  intro i s t h
  obtain ⟨u, hu, hc⟩ := exec_completed i s
  obtain rfl : u = t := by rw [hu] at h; cases h; rfl
  have hw := exec_writesOnlyItsOwn h
  refine ⟨⟨hc.cmd, hc.rounds, hc.key, hc.nLo, hc.nHi, hc.dst, hc.count, hc.pos, hc.minWords, hc.maxWords, hc.outSize,
    hc.posOrder, hc.raced, hc.got, hc.moves⟩, hw.blk, hw.sreg, fun hi => hw.locale ?_, hw.mem⟩
  rintro ⟨hraw, hq⟩
  rcases hi with hi | ⟨a, b, c, d, hi⟩
  · exact hraw hi
  · exact hq a b c d hi

end Sys2Proof.Proofs
end

section
/-!
SUPPORT. Runs of the machine: a running command completes under every order of moves, and what the host's programs RUN
and SETMIN leave (spec/10_state.md R40, spec/30_encoding.md R88).
-/

namespace Sys2Proof.Proofs

open Machine Claim

/-- A run goes on from the state its first steps leave. -/
theorem run_add (M : Host.Core) {m : Nat} {s t : M.State} (h : M.run m s = .next t) (n : Nat) :
    M.run (m + n) s = M.run n t := by
  induction m generalizing s with
  | zero => cases h; rw [Nat.zero_add]
  | succ m ih =>
    rw [Host.Core.run] at h
    cases hs : M.step s with
    | next u =>
      rw [hs] at h
      rw [Nat.succ_add, run_succ_of_step M hs, ih h]
    | fault r => rw [hs] at h; cases h
    | refused r => rw [hs] at h; cases h

/-! ## WAIT -/

/-- STATUS while BUSY is STATUS while idle with bit 0 set (10_state R27). -/
theorem statusWord_busy {s t : State} (hs : s.busy = false) (ht : t.busy = true) (hk : t.key = s.key) :
    t.statusWord = s.statusWord ||| 1 := by
  have hm : t.keyMask = s.keyMask := by rw [State.keyMask, State.keyMask, hk]
  rw [State.statusWord, State.statusWord, hm, hs, ht, show (1 : Word) = 0#31 ++ 1#1 from rfl, BitVec.or_append,
    BitVec.or_zero]
  rfl

/-- STATUS is the same in two states with the same BUSY and kernel (10_state R27). -/
theorem statusWord_congr {s t : State} (hb : t.busy = s.busy) (hk : t.key = s.key) : t.statusWord = s.statusWord := by
  simp only [State.statusWord, State.keyMask, hb, hk]

/-- WAIT on a busy core reads BUSY = 1 as often as it says, and then the core completes the command, with the last read
of the loop still to come (30_encoding R88; log entry 17). -/
theorem run_wait_of_busy {n : Nat} {s : State} {ms : List Move} (hb : s.busy = true)
    (hm : s.moves = Machine.wait n ++ ms) :
    ∃ t, Host.Core.run core (n + 1) s = .next t ∧ t.busy = false ∧ t.cmd = s.cmd ∧ t.key = s.key ∧
      t.moves = .wait 0 :: ms ∧ t.got = List.replicate n (.reg 0x01 s.statusWord) ++ s.got := by
  induction n generalizing s with
  | zero =>
    obtain ⟨u, hu, hc, -⟩ := step_of_busy_coreNext (.inr ⟨_, hm, rfl⟩) hb
    exact ⟨_, run_succ hu 0, hc.busy, hc.cmd, hc.key, hc.moves, hc.got⟩
  | succ n ih =>
    have hstep := step_of_wait_busy hb hm
    obtain ⟨t, ht, htb, htc, htk, htm, htg⟩ :=
      ih (s := { s with moves := Machine.wait n ++ ms, got := .reg 0x01 s.statusWord :: s.got }) hb rfl
    refine ⟨t, (run_succ hstep _).trans ht, htb, htc, htk, htm, htg.trans ?_⟩
    rw [List.replicate_succ', List.append_assoc]
    rfl

/-- RUN on an idle core accepts the command, waits for it and leaves the core idle (30_encoding R88). -/
theorem run_of_run {s : State} {i : Instr} {n : Nat} {ms : List Move} (hb : s.busy = false)
    (hm : s.moves = Machine.run i n ++ ms) :
    ∃ t, Host.Core.run core (n + 3) s = .next t ∧ t.busy = false ∧ t.cmd = encode i ∧ t.moves = ms ∧
      t.got = .reg 0x01 s.statusWord :: (List.replicate n (.reg 0x01 (s.statusWord ||| 1)) ++ s.got) := by
  obtain ⟨t, hstart, htb, htc, htk, htm, htg⟩ : ∃ t, step s = .next t ∧ t.busy = true ∧ t.cmd = encode i ∧
      t.key = s.key ∧ t.moves = Machine.wait n ++ ms ∧ t.got = s.got :=
    ⟨_, cmdWriteWhileIdleStartsCommand s _ _ hb hm, rfl, rfl, rfl, rfl, rfl⟩
  obtain ⟨u, hwait, hub, huc, huk, hum, hug⟩ := run_wait_of_busy htb htm
  have hend := step_of_wait_idle hub hum
  refine ⟨{ u with moves := ms, got := .reg 0x01 u.statusWord :: u.got }, ?_, hub, huc.trans htc, rfl, ?_⟩
  · calc Host.Core.run core (n + 3) s
        = Host.Core.run core (n + 1 + 1) t := run_succ hstart _
      _ = Host.Core.run core 1 u := run_add core hwait 1
      _ = .next { u with moves := ms, got := .reg 0x01 u.statusWord :: u.got } := run_succ hend 0
  · show Got.reg 0x01 u.statusWord :: u.got = _
    rw [statusWord_congr (hub.trans hb.symm) (huk.trans htk), hug, statusWord_busy hb htb htk, htg]

/-! ## Every order of moves -/

/-- The command running in `s` has completed after `n` steps, with its word still in CMD. -/
def CompletesIn (n : Nat) (s : State) : Prop :=
  ∃ t, Host.Core.run core n s = .next t ∧ t.busy = false ∧ t.cmd = s.cmd

/-- Completion one step later, from completion after a step that keeps CMD. -/
theorem completesIn_succ {n : Nat} {s t : State} (hs : step s = .next t) (hc : t.cmd = s.cmd) (h : CompletesIn n t) :
    CompletesIn (n + 1) s := by
  obtain ⟨u, hu, hb, hcmd⟩ := h
  exact ⟨u, (run_succ hs n).trans hu, hb, hcmd.trans hc⟩

/-- When the core moves next, a running command completes in one step (10_state R40). -/
theorem completesIn_one_of_coreNext {s s' : State} (h : CoreNext s s') (hb : s.busy = true) : CompletesIn 1 s := by
  obtain ⟨-, -, hcmd, -⟩ := step_of_coreNext h
  obtain ⟨u, hu, hc, -⟩ := step_of_busy_coreNext h hb
  exact ⟨_, run_succ hu 0, hc.busy, hc.cmd.trans hcmd⟩

/-- The host's accesses among the moves lie in an output memory of `size` bytes (20_memory R63). -/
def AccessesBelow (size : Nat) (ms : List Move) : Prop :=
  ∀ m ∈ ms, ∀ a b, (m = .writeMem a b → a < size) ∧ (m = .readMem a → a < size)

/-- On a busy core a move that is no reset and no access to an absent byte is the core's, a turn of WAIT, or a port
access, which takes one step and leaves the command running. -/
theorem step_of_busy {s : State} {m : Move} {ms : List Move} (hb : s.busy = true) (hm : s.moves = m :: ms)
    (hr : m ≠ .reset) (ha : ∀ a b, (m = .writeMem a b → a < s.outSize) ∧ (m = .readMem a → a < s.outSize)) :
    m = .core ∨ (∃ k, m = .wait k) ∨
      turnsOf m = 1 ∧ ∃ t, step s = .next t ∧ t.busy = true ∧ t.cmd = s.cmd ∧ t.outSize = s.outSize ∧ t.moves = ms := by
  obtain ⟨hreadReg, hreadMem⟩ := readsChangeNoState
  cases m with
  | core => exact .inl rfl
  | wait k => exact .inr (.inl ⟨k, rfl⟩)
  | reset => exact absurd rfl hr
  | writeReg ri v =>
    exact .inr (.inr ⟨rfl, _, registerWritesWhileBusyAreDropped s ri v ms hb hm, hb, rfl, rfl, rfl⟩)
  | readReg ri =>
    obtain ⟨v, f, h⟩ := hreadReg s ri ms hm
    exact .inr (.inr ⟨rfl, _, h, hb, rfl, rfl, rfl⟩)
  | readMem a =>
    obtain ⟨b, f, h⟩ := hreadMem s a ms ((ha a 0).2 rfl) hm
    exact .inr (.inr ⟨rfl, _, h, hb, rfl, rfl, rfl⟩)
  | writeMem a b =>
    rw [step_of_cons hm, makeMove]
    rcases hostWriteMem_cases a b { s with moves := ms } with ⟨hout, -⟩ | ⟨-, -, h⟩ | ⟨-, -, h⟩
    · exact absurd ((ha a b).1 rfl) (Nat.not_lt.mpr hout)
    · exact .inr (.inr ⟨rfl, _, h, hb, rfl, rfl, rfl⟩)
    · exact .inr (.inr ⟨rfl, _, h, hb, rfl, rfl, rfl⟩)

/-- A running command completes within one step more than the turns of the moves left, by induction on those moves. -/
theorem completesIn_turns (ms : List Move) {s : State} (hb : s.busy = true) (hm : s.moves = ms) (hr : .reset ∉ ms)
    (ha : AccessesBelow s.outSize ms) : ∃ n ≤ (ms.map turnsOf).sum, CompletesIn (n + 1) s := by
  induction ms generalizing s with
  | nil => exact ⟨0, Nat.zero_le _, completesIn_one_of_coreNext (.inl ⟨hm, rfl⟩) hb⟩
  | cons m ms ih =>
    obtain ⟨hne, hr'⟩ := not_or.mp (mt List.mem_cons.mpr hr)
    rw [List.map_cons, List.sum_cons]
    rcases step_of_busy hb hm (Ne.symm hne) (ha m List.mem_cons_self) with
      rfl | ⟨k, rfl⟩ | ⟨hone, t, ht, htb, htc, hts, htm⟩
    · exact ⟨0, Nat.zero_le _, completesIn_one_of_coreNext (.inr ⟨ms, hm, rfl⟩) hb⟩
    · obtain ⟨t, ht, htb, htc, -⟩ := run_wait_of_busy (n := k + 1) hb hm
      exact ⟨k + 1, Nat.le_add_right _ _, t, ht, htb, htc⟩
    · obtain ⟨n, hn, hc⟩ := ih htb htm hr' (hts ▸ fun x hx => ha x (List.mem_cons_of_mem m hx))
      exact ⟨n + 1, by omega, completesIn_succ ht htc hc⟩

/-- Settles O11: the moves left are used up one by one, and RUN is its command, its reads and the core's move. -/
theorem commandCompletesUnderEverySchedule : Obligations.CommandCompletesUnderEverySchedule :=
  ⟨fun s hb hr ha => completesIn_turns s.moves hb rfl hr ha, fun _ _ _ _ hb hm => run_of_run hb hm⟩

/-! ## SETMIN -/

/-- Words set one after the other, at the listed places. -/
def setWords (f : Fin 17 → Word) : List (Fin 17) → Vector Word 17 → Vector Word 17
  | [], x => x
  | i :: l, x => setWords f l (x.set i (f i))

/-- A word at a listed place is the one set there, and any other word stays. -/
theorem getElem_setWords (f : Fin 17 → Word) (l : List (Fin 17)) (x : Vector Word 17) (j : Fin 17) :
    (setWords f l x)[j] = if j ∈ l then f j else x[j] := by
  induction l generalizing x with
  | nil => simp [setWords]
  | cons i l ih =>
    rw [setWords, ih, getElem_set_fin]
    by_cases hl : j ∈ l
    · simp [hl]
    · by_cases hi : j = i <;> simp [hl, hi]

/-- Words set at all places are the words given. -/
theorem setWords_finRange (f : Fin 17 → Word) (x : Vector Word 17) :
    setWords f (List.finRange 17) x = Vector.ofFn f := by
  apply Vector.ext
  intro j hj
  have h := getElem_setWords f (List.finRange 17) x ⟨j, hj⟩
  rw [if_pos (List.mem_finRange _)] at h
  rw [Vector.getElem_ofFn]
  exact h

/-- Writes of MIN words on an idle core set those words and nothing else (10_state R34). -/
theorem run_wr_min (f : Fin 17 → Word) (l : List (Fin 17)) {s : State} {ms : List Move} (hb : s.busy = false)
    (hm : s.moves = (l.map fun i => wr (.min i) (f i)) ++ ms) :
    Host.Core.run core l.length s = .next { s with minWords := setWords f l s.minWords, moves := ms } := by
  induction l generalizing s with
  | nil =>
    cases s
    cases hm
    rfl
  | cons i l ih =>
    have hstep := step_of_idle_write hb hm
    exact (run_succ hstep _).trans (ih hb rfl)

/-- The 32-bit words of a number, put together again, are its low bits. -/
theorem wordsToNat_of_shifts (n u : Nat) :
    wordsToNat (List.ofFn fun i : Fin n => BitVec.ofNat 32 (u >>> (32 * i.val))) = u % 2 ^ (32 * n) := by
  induction n generalizing u with
  | zero => simp [wordsToNat, Nat.mod_one]
  | succ n ih =>
    have hshift : ∀ i : Fin n, u >>> (32 * i.succ.val) = (u / 2 ^ 32) >>> (32 * i.val) := fun i => by
      rw [← Nat.shiftRight_eq_div_pow, ← Nat.shiftRight_add, Fin.val_succ, Nat.mul_succ, Nat.add_comm]
    rw [List.ofFn_succ, wordsToNat]
    simp only [hshift, ih, Fin.val_zero, Nat.mul_zero, Nat.shiftRight_zero, BitVec.toNat_ofNat]
    rw [Nat.mul_succ, Nat.add_comm (32 * n), Nat.pow_add, Nat.mod_mul]

/-- The unsigned bits of an integer as a bit vector (00_scope R11). -/
theorem ofNat_unsignedBits (n : Nat) (v : Int) : BitVec.ofNat n (unsignedBits n v) = BitVec.ofInt n v := by
  apply BitVec.eq_of_toNat_eq
  rw [BitVec.toNat_ofInt, BitVec.toNat_ofNat, Nat.mod_eq_of_lt (unsignedBits_lt n v)]
  rfl

/-- The words SETMIN writes are the bound's: they read back as it (30_encoding R88, 10_state R34). -/
theorem wideBound_boundWords {v : Int} (hlo : -2 ^ 543 ≤ v) (hhi : v ≤ 2 ^ 543 - 1) :
    wideBound (Vector.ofFn fun i => boundWord v i.val) = v := by
  rw [wideBound, Vector.toList_ofFn]
  show (BitVec.ofNat 544 (wordsToNat (List.ofFn fun i : Fin 17 => BitVec.ofNat 32 _))).toInt = v
  rw [wordsToNat_of_shifts, Nat.mod_eq_of_lt (unsignedBits_lt 544 v), ofNat_unsignedBits]
  exact BitVec.toInt_ofInt_eq_self (by decide) hlo (by omega)

/-- Settles O60: the seventeen writes set all of MIN0 to MIN16, and those words read back as the bound. -/
theorem setMinLoadsTheBound : Obligations.SetMinLoadsTheBound := by
  intro s v ms hb hlo hhi hm
  refine ⟨_, run_wr_min (fun i => boundWord v i.val) (List.finRange 17) hb hm, ?_, rfl⟩
  rw [setWords_finRange]
  exact wideBound_boundWords hlo hhi

end Sys2Proof.Proofs
end

section
/-!
SUPPORT. The fills and the errors (spec/20_memory.md R66, spec/42_sampling.md R151, R155, R172, spec/60_exceptions.md
R194): the ways a command can end and what each commits, the buffer check, and FILLB's success.
-/

namespace Sys2Proof.Proofs

open Machine Claim

/-! ## Bytes and their cells -/

/-- An address whose listed byte is `b` reads as `b` (20_memory R63). -/
theorem byte_of_find? {t : State} {x : Nat} {b : Byte} (h : t.mem.find? x = some b) : t.byte x = b := by
  rw [State.byte, h, Option.getD_some]

/-- Where two output memories list the same at an address, the two states read the same there. -/
theorem byte_congr {s t : State} {x : Nat} (h : t.mem.find? x = s.mem.find? x) : t.byte x = s.byte x := by
  rw [State.byte, State.byte, h]

/-- The same output memory reads the same outside any destination. -/
theorem sameOutside_of_mem_eq {s t : State} (h : t.mem = s.mem) (a n : Nat) : SameOutside s t a n :=
  fun _ _ => byte_congr (by rw [h])

/-! ## How a command ends -/

/-- The three ways in which command `i` of `s` can end in `t`: it commits ERR and BUSY alone, it succeeds and writes no
byte outside its destination, or it is a sampling fill that ran out of blocks and freed its destination (60_exceptions
R194, 20_memory R66, 42_sampling R172). -/
inductive Ends (i : Instr) (s t : State) : Prop
  | failed (e : ErrorKind) (h : t = s.complete e)
  | succeeded (hok : t.err = .ok) (hout : SameOutside s t s.dst.toNat (s.count.toNat * elementSize i))
  | ranOut (hi : i ∈ samplingFills.map Prod.fst) (h : FreedDestination s t (elementSize i))

/-- An advance fails, or succeeds and leaves the output memory alone (41_locale R137). -/
theorem advanceTo_ends {i : Instr} {s t : State} {o : Option Machine.Locale} (h : advanceTo o s = .next t) :
    Ends i s t := by
  rcases advanceTo_cases o s with ⟨-, h'⟩ | ⟨l, -, h'⟩ <;> rw [h'] at h <;> cases h
  · exact .failed _ rfl
  · exact .succeeded rfl (sameOutside_of_mem_eq rfl _ _)

/-- A sampling fill that has passed its checks stores its values in its destination, or frees it (42_sampling R164,
R172). -/
theorem storeSamples_ends {i : Instr} {s t : State} {mn : Int} {o : Option (List Nat × Nat)}
    (hi : i ∈ samplingFills.map Prod.fst) (hlen : ∀ ms j, o = some (ms, j) → ms.length = s.count.toNat)
    (h : storeSamples s (elementSize i) mn o = .next t) : Ends i s t := by
  rcases storeSamples_cases s (elementSize i) mn o with ⟨-, h'⟩ | ⟨ms, j, ho, h'⟩ <;> rw [h'] at h <;> cases h
  · refine .ranOut hi ⟨rfl, rfl, fun j hj => ⟨s.fresh + j, ?_⟩, rfl, fun x hx => ?_⟩
    · exact byte_of_find? (Memory.find?_setFree_inside _ _ _ _ _ hj)
    · exact byte_congr (Memory.find?_setFree_outside _ _ hx)
  · refine .succeeded rfl fun x hx => byte_congr (Memory.find?_writeInts_outside _ _ _ ?_)
    rwa [hlen ms j ho]

/-- FILLI of each width fails a check, or goes on to its sampling (42_sampling R161). -/
theorem fillInts_ends {i : Instr} {s t : State} {w : Nat} (hi : i ∈ samplingFills.map Prod.fst)
    (hw : w / 8 = elementSize i) (h : fillInts w s = .next t) : Ends i s t := by
  rcases fillInts_cases w s with ⟨e, -, h'⟩ | ⟨k, -, -, -, h'⟩ <;> rw [h'] at h
  · cases h
    exact .failed e rfl
  · rw [hw] at h
    exact storeSamples_ends hi (fun ms j ho => (sampleDraws_spec ho).1) h

/-- Every command ends in one of the three ways. -/
theorem exec_ends {i : Instr} {s t : State} (h : exec i s = .next t) : Ends i s t := by
  cases i with
  | block =>
    rw [exec] at h
    rcases execBlock_cases s with ⟨e, -, h'⟩ | ⟨k, l, -, -, h'⟩ <;> rw [h'] at h <;> cases h
    · exact .failed e rfl
    · exact .succeeded rfl (sameOutside_of_mem_eq rfl _ _)
  | blockraw =>
    rw [exec] at h
    rcases execBlockraw_cases s with ⟨e, -, h'⟩ | ⟨k, -, h'⟩ <;> rw [h'] at h <;> cases h
    · exact .failed e rfl
    · exact .succeeded rfl (sameOutside_of_mem_eq rfl _ _)
  | skip => exact advanceTo_ends h
  | mock => exact advanceTo_ends h
  | fillb =>
    rw [exec] at h
    rcases execFillb_cases s with ⟨e, -, h'⟩ | ⟨k, -, -, -, h'⟩ <;> rw [h'] at h <;> cases h
    · exact .failed e rfl
    · refine .succeeded rfl fun x hx => byte_congr (find?_fillBlocks_outside _ _ _ _ _ _ _ ?_)
      rwa [elementSize, Nat.mul_one] at hx
  | filli8 => exact fillInts_ends (by decide) (w := 8) rfl h
  | filli16 => exact fillInts_ends (by decide) (w := 16) rfl h
  | filli32 => exact fillInts_ends (by decide) (w := 32) rfl h
  | filli64 => exact fillInts_ends (by decide) (w := 64) rfl h
  | fillbig =>
    rw [exec] at h
    rcases execFillbig_cases s with ⟨e, -, h'⟩ | ⟨k, -, -, -, -, -, h'⟩ <;> rw [h'] at h
    · cases h
      exact .failed e rfl
    · exact storeSamples_ends (by decide) (fun ms j ho => (sampleBlocks_spec ho).1) h
  | qround a b c d =>
    cases h
    exact .succeeded rfl (sameOutside_of_mem_eq rfl _ _)

/-- Settles O19: a failed fill writes nothing, and the other two ways to end keep to the destination. -/
theorem fillsWriteOnlyTheirDestination : Obligations.FillsWriteOnlyTheirDestination := by
  intro p hp s t h
  rw [elementSize_of_mem_fills p hp]
  cases exec_ends h with
  | failed e h => exact sameOutside_of_mem_eq (by rw [h, State.complete_mem]) _ _
  | succeeded _ hout => exact hout
  | ranOut _ h =>
    obtain ⟨-, -, -, -, hout⟩ := h
    exact hout

/-- Settles O20: of the three ways to end, success is no error. -/
theorem errorsCommitNothingElse : Obligations.ErrorsCommitNothingElse := by
  intro i s t h herr
  cases exec_ends h with
  | failed e h => exact .inl (by rw [h]; rfl)
  | succeeded hok _ => exact absurd hok herr
  | ranOut hi h =>
    obtain ⟨p, hp, rfl⟩ := List.mem_map.mp hi
    exact .inr ⟨p, hp, rfl, by rwa [elementSize_of_mem_fills p (List.mem_cons_of_mem _ hp)]⟩

/-! ## The buffer check -/

/-- Each FILLI command is the fill of its width (30_encoding R82). -/
theorem exec_narrowFill (s : State) : ∀ p ∈ narrowFills, exec p.1 s = fillInts p.2 s := by
  simp only [narrowFills, List.forall_mem_cons]
  exact ⟨rfl, rfl, rfl, rfl, fun _ h => absurd h List.not_mem_nil⟩

/-- A destination that passes OUT_SIZE does not fit (42_sampling R151). -/
theorem dstFits_eq_false {s : State} {n : Nat} (h : s.outSize < s.dst.toNat + s.count.toNat * n) :
    s.dstFits n = false :=
  decide_eq_false (Nat.not_le.mpr h)

/-- Bounds in the envelope pass FILLBIG's width check (42_sampling R170). -/
theorem inEnvelope_of_boundsInEnvelope {s : State} (h : BoundsInEnvelope s) :
    inEnvelope (bigLow s) = true ∧ inEnvelope (bigHigh s) = true := by
  obtain ⟨hlo, hlo', hhi, hhi'⟩ := h
  exact ⟨decide_eq_true ⟨hlo, hlo'⟩, decide_eq_true ⟨hhi, hhi'⟩⟩

section

variable {s : State} {k : Vector Word 8} {r : Nat} (h : Ready s k r)
include h

/-- FILLB checks its buffer after the kernel and the rounds (60_exceptions R193). -/
theorem fillb_invalidBuffer (hd : s.dstFits 1 = false) : FailsWith .fillb s .invalidBuffer := by
  obtain ⟨hk, hr, -⟩ := checks_of_ready h
  rw [FailsWith, exec, execFillb, validated_of_ready hk hr]
  simp only [hd, Bool.not_false, if_true]
  rfl

/-- FILLI checks its buffer after the range (60_exceptions R193). -/
theorem fillInts_invalidBuffer {w : Nat} (hrange : 2 ≤ highBound w s - lowBound w s) (hd : s.dstFits (w / 8) = false) :
    fillInts w s = raise .invalidBuffer s := by
  obtain ⟨hk, hr, -⟩ := checks_of_ready h
  rw [fillInts, validated_of_ready hk hr]
  simp only [hd, Bool.not_false, if_true]
  exact if_neg (Int.not_lt.mpr hrange)

/-- FILLBIG checks its buffer after the range and the width (60_exceptions R193). -/
theorem fillbig_invalidBuffer (hrange : 2 ≤ bigHigh s - bigLow s) (hw : BoundsInEnvelope s)
    (hd : s.dstFits 64 = false) : FailsWith .fillbig s .invalidBuffer := by
  obtain ⟨hk, hr, -⟩ := checks_of_ready h
  obtain ⟨hlo, hhi⟩ := inEnvelope_of_boundsInEnvelope hw
  rw [bigLow] at hlo
  rw [bigHigh] at hhi
  rw [FailsWith, exec, execFillbig, validated_of_ready hk hr]
  simp only [hlo, hhi, hd, Bool.and_self, Bool.not_true, Bool.not_false, Bool.false_eq_true, if_false, if_true]
  exact if_neg (Int.not_lt.mpr hrange)

end

/-- Settles O39: the buffer check fails in each fill once its earlier checks pass. -/
theorem destinationOutsideMemoryIsInvalidBuffer : Obligations.DestinationOutsideMemoryIsInvalidBuffer := by
  intro s k r h
  refine ⟨fun hd => ?_, fun p hp hrange hd => ?_, fun hrange hw hd => ?_⟩
  · exact fillb_invalidBuffer h (dstFits_eq_false (by rwa [Nat.mul_one]))
  · exact (exec_narrowFill s p hp).trans (fillInts_invalidBuffer h hrange (dstFits_eq_false hd))
  · exact fillbig_invalidBuffer h hrange hw (dstFits_eq_false hd)

/-! ## FILLB's success -/

/-- A completed command that leaves BLK, S and the count of free values alone changes no more than a fill may. -/
theorem onlyFillChanges_of_completed {s t : State} (hc : Completed s t) (hblk : t.blk = s.blk) (hsreg : t.sreg = s.sreg)
    (hfresh : t.fresh = s.fresh) : OnlyFillChanges s t := by
  rw [OnlyFillChanges, ← hc.cmd, ← hc.rounds, ← hc.nLo, ← hc.nHi, ← hc.dst, ← hc.count, ← hc.pos, ← hc.key,
    ← hc.minWords, ← hc.maxWords, ← hc.outSize, ← hc.posOrder, ← hc.raced, ← hc.got, ← hc.moves, ← hblk, ← hsreg,
    ← hfresh]

/-- Settles O42: the destination reads as the stored blocks, byte by byte, and the rest as before. -/
theorem fillbCompletesWithBlockBytes : Obligations.FillbCompletesWithBlockBytes := by
  intro s k r h hfit htop
  obtain ⟨hk, hr, hn⟩ := checks_of_ready h
  obtain ⟨t, ht, hc, herr, hblk, hsreg, hfresh, hloc, hmem⟩ := execFillb_of_ready hk hr hfit htop
  rw [hn] at hmem
  refine ⟨t, ht, herr, hc.busy, ?_, fun j hj => ?_, onlyFillChanges_of_completed hc hblk hsreg hfresh, fun x hx => ?_⟩
  · rw [hloc]
    exact Locale.index_ofIndex _ (Nat.lt_of_le_pred (by decide) htop)
  · have hb : s.count.toNat ≤ 64 * blocksFor s.count.toNat := by unfold blocksFor; omega
    have hfind := find?_fillBlocks_inside (s.blockAt k r) _ s.locale.index _ s.dst.toNat s.mem j hj hb
    rw [← hmem] at hfind
    rw [byte_of_find? hfind]
    exact List.getElem?_eq_getElem _
  · apply byte_congr
    rw [hmem]
    exact find?_fillBlocks_outside _ _ _ _ _ _ _ hx

end Sys2Proof.Proofs
end

section
/-!
SUPPORT. The host's memory port outside a running fill's destination (spec/20_memory.md R63, R70), and the moves of a
disciplined host (spec/70_reset_and_hazards.md R230, R233).
-/

namespace Sys2Proof.Proofs

open Machine Claim

/-- Outside the destination a host write is a plain write (20_memory R63). -/
theorem hostWriteMem_of_outside {s : State} {a : Nat} (ha : a < s.outSize) (hd : s.inDest a = false) (b : Byte) :
    hostWriteMem a b s = .next { s with mem := s.mem.write a b } := by
  rw [hostWriteMem, if_neg (Nat.not_le.mpr ha), if_neg (by simp [hd])]

/-- Outside the destination a host read gives the byte (20_memory R63). -/
theorem hostReadMem_of_outside {s : State} {a : Nat} (ha : a < s.outSize) (hd : s.inDest a = false) :
    hostReadMem a s = .next { s with got := .mem a (s.byte a) :: s.got } := by
  rw [hostReadMem, if_neg (Nat.not_le.mpr ha), if_neg (by simp [hd])]

/-- Settles O56: both accesses are those of plain memory, on the state with the move taken. -/
theorem hostMemoryIsPlainOutsideTheDestination : Obligations.HostMemoryIsPlainOutsideTheDestination := by
  intro s a b ms ha hd
  refine ⟨fun hm => ?_, fun hm => ?_⟩
  · have hw := hostWriteMem_of_outside (s := { s with moves := ms }) ha hd b
    refine ⟨_, (step_of_cons hm).trans hw, ?_, fun x hx => ?_, rfl⟩
    · exact byte_of_find? (Memory.find?_write_same _ _ _)
    · exact byte_congr (Memory.find?_write_ne _ _ hx)
  · exact (step_of_cons hm).trans (hostReadMem_of_outside (s := { s with moves := ms }) ha hd)

/-- The moves to come have no part in a move's discipline. -/
theorem disciplined_moves (s : State) (m : Move) (ms : List Move) :
    Disciplined { s with moves := ms } m ↔ Disciplined s m := by
  cases m <;> exact Iff.rfl

/-- A disciplined move goes on and, with no byte raced before it, leaves none raced (70 R230, R233). -/
theorem makeMove_of_disciplined {m : Move} {s : State} (hd : Disciplined s m) (hr : s.raced = []) :
    ∃ t, makeMove m s = .next t ∧ t.raced = [] := by
  cases m with
  | writeReg ri v =>
    refine ⟨_, rfl, ?_⟩
    rcases hostWriteReg_cases ri v s with e | ⟨r, -, -, e⟩ <;> rw [e]
    · exact hr
    · obtain ⟨-, -, -, hraced⟩ := writeIdle_frame s v r
      exact hraced.trans hr
  | readReg ri =>
    obtain ⟨v, f, e⟩ := hostReadReg_cases ri s
    exact ⟨_, rfl, by rw [e]; exact hr⟩
  | writeMem a b =>
    obtain ⟨ha, hout⟩ := hd
    exact ⟨_, hostWriteMem_of_outside ha hout b, hr⟩
  | readMem a =>
    obtain ⟨ha, hout⟩ := hd
    exact ⟨_, hostReadMem_of_outside ha hout, hr⟩
  | wait n =>
    obtain ⟨g, ms, e⟩ := hostWait_cases n s
    exact ⟨_, rfl, by rw [e]; exact hr⟩
  | reset => exact ⟨_, rfl, rfl⟩
  | core =>
    obtain ⟨t, ht⟩ := coreMove_goes_on s
    refine ⟨t, ht, ?_⟩
    rcases coreMove_next_cases ht with rfl | ⟨u, rfl, -, -⟩
    · exact hr
    · rfl

/-- Settles O13: a step with a move left is that move. -/
theorem disciplinedMovesGoOnWithoutRaces : Obligations.DisciplinedMovesGoOnWithoutRaces := by
  intro s m ms hm hd hr
  rw [step_of_cons hm]
  exact makeMove_of_disciplined ((disciplined_moves s m ms).mpr hd) hr

end Sys2Proof.Proofs
end

section
/-!
SUPPORT. The encoding of command words (spec/30_encoding.md R81 to R86): the decoder and the encoder are inverse to each
other, the legal words are the commands' words and are counted as the commands are, and what a running illegal word does.
-/

namespace Sys2Proof.Proofs

open Machine Claim

/-! ## The words of QROUND -/

/-- A word whose low 16 bits are 8 is the word of the QROUND its four index fields name (30_encoding R81, R83). -/
theorem encode_qround_fields {c : Word} (h : c.toNat % 2 ^ 16 = 8) :
    encode (.qround (fieldQA c) (fieldQB c) (fieldQC c) (fieldQD c)) = c := by
  apply BitVec.eq_of_toNat_eq
  rw [toNat_encode_qround, fieldQA, fieldQB, fieldQC, fieldQD]
  simp only [toNat_field]
  omega

/-- The four index fields of QROUND's word are its operands (30_encoding R81). -/
theorem fields_encode_qround (a b c d : BitVec 4) :
    fieldQA (encode (.qround a b c d)) = a ∧ fieldQB (encode (.qround a b c d)) = b ∧
      fieldQC (encode (.qround a b c d)) = c ∧ fieldQD (encode (.qround a b c d)) = d := by
  refine ⟨?_, ?_, ?_, ?_⟩ <;> apply BitVec.eq_of_toNat_eq
  · rw [fieldQA, toNat_field, toNat_encode_qround]; omega
  · rw [fieldQB, toNat_field, toNat_encode_qround]; omega
  · rw [fieldQC, toNat_field, toNat_encode_qround]; omega
  · rw [fieldQD, toNat_field, toNat_encode_qround]; omega

/-- A word whose low 16 bits are 8 is no fixed word, so it decodes to the QROUND its fields name (30_encoding R84). -/
theorem decode_of_low_eq {c : Word} (h : c.toNat % 2 ^ 16 = 8) :
    decode c = .ok (.qround (fieldQA c) (fieldQB c) (fieldQC c) (fieldQD c)) := by
  have hne : ∀ p : Word, p.toNat % 2 ^ 16 ≠ 8 → c ≠ p := fun p hp e => hp (e ▸ h)
  rw [decode_eq, if_pos h]
  simp [hne]

/-! ## Decoding and encoding -/

/-- Decoding the word of an instruction gives the instruction back: a fixed word is found by its own row, and QROUND's
by its low 16 bits, with the operands in its fields. -/
@[simp] theorem decode_encode (i : Instr) : decode (encode i) = .ok i := by
  cases i with
  | qround a b c d =>
    have hlow : (encode (.qround a b c d)).toNat % 2 ^ 16 = 8 := by rw [toNat_encode_qround]; omega
    obtain ⟨ha, hb, hc, hd⟩ := fields_encode_qround a b c d
    rw [decode_of_low_eq hlow, ha, hb, hc, hd]
  | _ => rfl

/-- Settles O2: the types of an instruction already hold its well-formedness, so the check is not needed. -/
theorem decodeOfEncodeGivesInstructionBack : Obligations.DecodeOfEncodeGivesInstructionBack :=
  fun i _ => decode_encode i

/-- No two instructions have one word (30_encoding R86). -/
theorem encode_injective : Function.Injective encode := fun i j h =>
  Except.ok.inj ((decode_encode i).symm.trans (h ▸ decode_encode j))

/-- What a row builds from a word that matches it has that word (30_encoding R83, R84). -/
theorem encode_build_of_holds : ∀ r ∈ rows, ∀ c, r.holds c = true → encode (r.build c) = c := by
  simp only [rows, List.forall_mem_cons, holds_fixed, holds_qround, decide_eq_true_eq, forall_eq]
  exact ⟨rfl, rfl, rfl, rfl, rfl, rfl, rfl, rfl, rfl, rfl, fun _ => encode_qround_fields,
    fun _ h => absurd h List.not_mem_nil⟩

/-- A word that decodes is the word of what it decodes to. -/
theorem encode_of_decode {c : Word} {i : Instr} (h : decode c = .ok i) : encode i = c := by
  rw [decode_eq_answer] at h
  cases hf : rows.find? fun q => q.holds c with
  | none => rw [hf] at h; cases h
  | some r =>
    rw [hf] at h
    cases h
    exact encode_build_of_holds r (List.mem_of_find?_eq_some hf) c (List.find?_some (p := fun q : Row => q.holds c) hf)

/-! ## The legal words -/

/-- The legality check as its three cases: a command with no field, FILLI, and QROUND (30_encoding R84). -/
theorem legal_iff (c : Word) : legal c = true ↔
    (fieldOp c ∈ [0x1#4, 0x2#4, 0x3#4, 0x4#4, 0x5#4, 0x7#4] ∧ c = (fieldOp c).setWidth 32) ∨
    (fieldOp c = 0x6#4 ∧ c &&& 0xFFFFFCF0#32 = 0#32) ∨ (fieldOp c = 0x8#4 ∧ c &&& 0x0000FFF0#32 = 0#32) := by
  unfold legal
  rw [← fieldOp]
  by_cases h6 : fieldOp c = 0x6#4
  · simp [h6]
  · by_cases h8 : fieldOp c = 0x8#4
    · simp [h8]
    · simp [h6, h8]

/-- A field that lies inside a mask is 0 in a word that the mask takes to 0. -/
theorem field_of_masked {c m : Word} (h : c &&& m = 0#32) (lo len : Nat)
    (hm : m.extractLsb' lo len = BitVec.allOnes len) : c.toNat / 2 ^ lo % 2 ^ len = 0 := by
  have hf : c.extractLsb' lo len = 0#len := by
    rw [← BitVec.and_allOnes (x := c.extractLsb' lo len), ← hm, ← BitVec.extractLsb'_and, h, BitVec.extractLsb'_zero]
  rw [← Nat.shiftRight_eq_div_pow, ← BitVec.extractLsb'_toNat, hf]
  rfl

/-- The operation code of a word as a number. -/
theorem toNat_fieldOp (c : Word) : (fieldOp c).toNat = c.toNat % 16 := by
  rw [fieldOp, toNat_field, pow_zero, Nat.div_one]
  rfl

/-- A word that is the operation code of a command with no field, and nothing else, is that command's. -/
theorem exists_encode_eq_setWidth {op : BitVec 4} (h : op ∈ [0x1#4, 0x2#4, 0x3#4, 0x4#4, 0x5#4, 0x7#4]) :
    ∃ i, encode i = op.setWidth 32 := by
  simp only [List.mem_cons, List.not_mem_nil, or_false] at h
  rcases h with rfl | rfl | rfl | rfl | rfl | rfl
  exacts [⟨.block, rfl⟩, ⟨.blockraw, rfl⟩, ⟨.skip, rfl⟩, ⟨.mock, rfl⟩, ⟨.fillb, rfl⟩, ⟨.fillbig, rfl⟩]

/-- A word with FILLI's operation code and every bit 0 but its width field's is a FILLI's (30_encoding R83). -/
theorem exists_encode_eq_of_filli {c : Word} (hop : fieldOp c = 0x6#4) (h : c &&& 0xFFFFFCF0#32 = 0#32) :
    ∃ i, encode i = c := by
  have hlow : c.toNat % 16 = 6 := by rw [← toNat_fieldOp, hop]; rfl
  have hreserved := field_of_masked h 4 4 (by decide)
  have hhigh := field_of_masked h 10 22 (by decide)
  have hword : c.toNat = 0x006 ∨ c.toNat = 0x106 ∨ c.toNat = 0x206 ∨ c.toNat = 0x306 := by omega
  rcases hword with e | e | e | e
  exacts [⟨.filli8, BitVec.eq_of_toNat_eq e.symm⟩, ⟨.filli16, BitVec.eq_of_toNat_eq e.symm⟩,
    ⟨.filli32, BitVec.eq_of_toNat_eq e.symm⟩, ⟨.filli64, BitVec.eq_of_toNat_eq e.symm⟩]

/-- A word with QROUND's operation code and nothing in the reserved and width fields is a QROUND's (30_encoding R83). -/
theorem exists_encode_eq_of_qround {c : Word} (hop : fieldOp c = 0x8#4) (h : c &&& 0x0000FFF0#32 = 0#32) :
    ∃ i, encode i = c := by
  have hlow : c.toNat % 16 = 8 := by rw [← toNat_fieldOp, hop]; rfl
  have hunused := field_of_masked h 4 12 (by decide)
  exact ⟨_, encode_qround_fields (by omega)⟩

/-- The word of every instruction is legal. -/
theorem legal_encode (i : Instr) : legal (encode i) = true := by
  cases i with
  | qround a b c d =>
    have hop : fieldOp (encode (.qround a b c d)) = 0x8#4 := by
      apply BitVec.eq_of_toNat_eq
      rw [toNat_fieldOp, toNat_encode_qround]
      simp; omega
    have hunused : encode (.qround a b c d) &&& 0x0000FFF0#32 = 0#32 := by
      show (d ++ c ++ b ++ a ++ 0x0008#16) &&& (0x0000#16 ++ 0xFFF0#16) = 0#32
      rw [BitVec.and_append, BitVec.and_zero]
      rfl
    exact (legal_iff _).mpr (.inr (.inr ⟨hop, hunused⟩))
  | _ => rfl

/-- The legal words are the commands' words (30_encoding R84, R86). -/
theorem legal_iff_exists_encode (c : Word) : legal c = true ↔ ∃ i, encode i = c := by
  constructor
  · intro h
    rcases (legal_iff c).mp h with ⟨hop, hc⟩ | ⟨hop, hc⟩ | ⟨hop, hc⟩
    · rw [hc]; exact exists_encode_eq_setWidth hop
    · exact exists_encode_eq_of_filli hop hc
    · exact exists_encode_eq_of_qround hop hc
  · rintro ⟨i, rfl⟩
    exact legal_encode i

/-- Settles O3: both sides say that the word is a command's. -/
theorem legalWordsAreExactlyTheCommandWords : Obligations.LegalWordsAreExactlyTheCommandWords := by
  refine ⟨fun c => ?_, fun c i h => encode_of_decode h⟩
  rw [legal_iff_exists_encode]
  constructor
  · rintro ⟨i, h⟩
    exact ⟨i, encode_of_decode h⟩
  · rintro ⟨i, rfl⟩
    exact ⟨i, decode_encode i⟩

/-! ## The rows of the encoding table -/

/-- Two rows whose patterns differ in a bit that both masks fix have no word in common. -/
theorem not_holds_both {p q : Row} (h : p.pattern &&& q.mask ≠ q.pattern &&& p.mask) (c : Word) :
    ¬ (p.holds c = true ∧ q.holds c = true) := by
  rintro ⟨hp, hq⟩
  have hp : c &&& p.mask = p.pattern := eq_of_beq hp
  have hq : c &&& q.mask = q.pattern := eq_of_beq hq
  rw [← hp, ← hq] at h
  exact h (by rw [BitVec.and_assoc, BitVec.and_assoc, BitVec.and_comm p.mask])

/-- Settles O4: the patterns of any two rows differ where both masks fix the word. -/
theorem encodingRowsNeverOverlap : Obligations.EncodingRowsNeverOverlap := by
  have hdiffer : rows.Pairwise fun p q => p.pattern &&& q.mask ≠ q.pattern &&& p.mask := by decide
  exact hdiffer.imp not_holds_both

/-! ## How many words are legal -/

/-- The commands that carry no operand in their word, in the order of the encoding table (30_encoding R83). -/
def fixedCommands : Vector Instr 10 :=
  #v[.block, .blockraw, .skip, .mock, .fillb, .filli8, .filli16, .filli32, .filli64, .fillbig]

/-- The commands are ten with no operand in their word, and QROUND with four (30_encoding R83). -/
def instrEquiv : Fin 10 ⊕ (BitVec 4 × BitVec 4 × BitVec 4 × BitVec 4) ≃ Instr where
  toFun
    | .inl k => fixedCommands[k]
    | .inr (a, b, c, d) => .qround a b c d
  invFun
    | .block => .inl 0
    | .blockraw => .inl 1
    | .skip => .inl 2
    | .mock => .inl 3
    | .fillb => .inl 4
    | .filli8 => .inl 5
    | .filli16 => .inl 6
    | .filli32 => .inl 7
    | .filli64 => .inl 8
    | .fillbig => .inl 9
    | .qround a b c d => .inr (a, b, c, d)
  left_inv
    | .inl k => by revert k; decide
    | .inr _ => rfl
  right_inv i := by cases i <;> rfl

/-- There are 10 + 2^16 commands, operands included. -/
theorem card_instr : Nat.card Instr = 10 + 2 ^ 16 := by
  have hfield : Nat.card (BitVec 4) = 2 ^ 4 := by
    rw [Nat.card_congr BitVec.equivFin.toEquiv, Nat.card_fin]
  rw [← Nat.card_congr instrEquiv]
  simp only [Nat.card_sum, Nat.card_prod, Nat.card_fin, hfield]
  norm_num

/-- Settles O5: each legal word is the word of one command, so the legal words are as many as the commands. -/
theorem legalWordsAreTenAndTwoToTheSixteen : Obligations.LegalWordsAreTenAndTwoToTheSixteen := by
  have hlegal : (fun c => legal c = true) = (· ∈ Set.range encode) := funext fun c =>
    propext (legal_iff_exists_encode c)
  unfold Obligations.LegalWordsAreTenAndTwoToTheSixteen
  rw [hlegal, ← card_instr]
  exact (Nat.card_congr (Equiv.ofInjective encode encode_injective)).symm

/-! ## Fixed words and illegal words -/

/-- Settles O1: each word is looked up in the table. -/
theorem specWordsDecodeAsWritten : Obligations.SpecWordsDecodeAsWritten :=
  ⟨rfl, rfl, rfl, rfl, rfl, rfl, rfl, rfl, rfl, rfl, rfl, rfl, rfl⟩

/-- A word that is not legal does not decode (30_encoding R85). -/
theorem decode_of_not_legal {c : Word} (h : legal c = false) : ∃ e, decode c = .error e := by
  cases hd : decode c with
  | error e => exact ⟨e, rfl⟩
  | ok i =>
    rw [← encode_of_decode hd, legal_encode] at h
    cases h

/-- While no command runs there is no destination, so the invariant leaves no raced byte (20_memory R70). -/
theorem raced_of_not_running {s : State} (h : MachineInv s) (hr : s.running = none) : s.raced = [] :=
  List.eq_nil_iff_forall_not_mem.mpr fun a ha =>
    absurd (h.raced_dest a ha) (by simp [State.inDest, State.runningSize, hr])

/-- Settles O7: the core's move completes an illegal word with IllegalCommand, and there is no race to settle. -/
theorem illegalWordChangesOnlyErr : Obligations.IllegalWordChangesOnlyErr := by
  intro s s' hinv hnext hb hlegal
  obtain ⟨hstep, hbusy, hcmd, hraced⟩ := step_of_coreNext hnext
  obtain ⟨e, he⟩ := decode_of_not_legal hlegal
  have hnone : s'.raced = [] := hraced.trans (raced_of_not_running hinv (running_of_error hb he))
  rw [hstep, coreMove_of_error (hbusy.trans hb) (hcmd ▸ he),
    State.settleRaces_of_nil (s'.complete .illegalCommand) hnone]
  rfl

end Sys2Proof.Proofs
end

section
/-!
SUPPORT. The quarter round, the transform, and BLOCK, BLOCKRAW and QROUND (spec/40_block_core.md R100 to R109, R114).
-/

namespace Sys2Proof.Proofs

open Machine Claim

/-! ## The quarter round -/

/-- One of the published lines of a quarter round, `a += b; d ^= a; d <<<= n` (40_block_core R103). -/
def quarterLine (a b d : Fin 16) (n : Nat) (x : Block) : Block := rotStep (xorStep (addStep x a b) d a) d n

/-- The twelve steps of a quarter round are its four lines (40_block_core R103). -/
theorem quarterRound_eq_lines (x : Block) (a b c d : Fin 16) :
    quarterRound x a b c d =
      quarterLine c d b 7 (quarterLine a b d 8 (quarterLine c d b 12 (quarterLine a b d 16 x))) := rfl

/-- What a line leaves in each word, where the word it adds to is not the one it rotates. -/
theorem getElem_quarterLine {a d : Fin 16} (h : a ≠ d) (b : Fin 16) (n : Nat) (x : Block) (k : Fin 16) :
    (quarterLine a b d n x)[k] =
      if d = k then rotl32 (x[d] ^^^ (x[a] + x[b])) n else if a = k then x[a] + x[b] else x[k] := by
  rw [quarterLine, getElem_rotStep, getElem_xorStep, getElem_xorStep, getElem_addStep, getElem_addStep,
    getElem_addStep, if_pos rfl, if_neg h, if_pos rfl]
  by_cases hk : d = k <;> simp [hk]

/-- Settles O24: each line's words are read off the line before it. -/
theorem quarterRoundOnFourDifferentWords : Obligations.QuarterRoundOnFourDifferentWords := by
  intro x a b c d hnodup
  simp only [List.nodup_cons, List.mem_cons, List.not_mem_nil, or_false, not_or, not_false_eq_true, List.nodup_nil,
    and_true] at hnodup
  obtain ⟨⟨hab, hac, had⟩, ⟨hbc, hbd⟩, hcd⟩ := hnodup
  have hline1 := getElem_quarterLine had b
  have hline2 := getElem_quarterLine (Ne.symm hbc) d
  simp only [quarterRound_eq_lines, hline1, hline2, hab, hac, had, hbc, hbd, hcd, Ne.symm hab, Ne.symm hac, Ne.symm had,
    Ne.symm hbc, Ne.symm hbd, Ne.symm hcd, if_true, if_false, true_and]
  intro i hi
  simp only [List.mem_cons, List.not_mem_nil, or_false, not_or] at hi
  obtain ⟨hia, hib, hic, hid⟩ := hi
  simp only [Ne.symm hia, Ne.symm hib, Ne.symm hic, Ne.symm hid, if_false]

/-- A left rotation by less than a word is the library's (00_scope R11). -/
theorem rotl32_eq_rotateLeft (x : Word) {n : Nat} (h : n < 32) : rotl32 x n = x.rotateLeft n := by
  rw [rotl32, BitVec.rotateLeft_def, Nat.mod_eq_of_lt h]

/-- Settles O25: the twelve steps of the model are those of R103, with `rotl32` the library's rotation. -/
theorem qroundCompletesWithTwelveSteps : Obligations.QroundCompletesWithTwelveSteps := by
  intro a b c d s
  simp only [← rotl32_eq_rotateLeft, Nat.reduceLT, List.foldl_cons, List.foldl_nil]
  rfl

/-! ## The transform -/

/-- Settles O26: the model counts its double-rounds by recursion, and a word of the initial state is one of the
concatenation. -/
theorem transformSumsInitialAndMixedState : Obligations.TransformSumsInitialAndMixedState := by
  refine ⟨fun k p r => ⟨fun i => ?_, fun i => ?_, fun i => ?_, fun i => ?_⟩, fun x => rfl⟩
  · simp [transform, doubleRounds_eq_iterate]
  · rw [getElem_initialState]
    fin_cases i <;> rfl
  · rw [getElem_initialState]
    simp
  · rw [getElem_initialState]
    have hconstants : ¬ 12 + i.val < 4 := by omega
    have hkernel : ¬ 12 + i.val - 4 < 8 := by omega
    have hposition : 12 + i.val - 4 - 8 = i.val := by omega
    simp [List.getElem_append, hconstants, hkernel, hposition]

/-- Settles O27: the kernel evaluates the transform on the published inputs. -/
theorem transformReproducesPublishedVectors : Obligations.TransformReproducesPublishedVectors := by
  unfold Obligations.TransformReproducesPublishedVectors
  refine ⟨?_, ?_, ?_, ?_, ?_⟩ <;> decide +kernel

/-! ## BLOCK and BLOCKRAW -/

/-- BLOCK on a ready state below the last locale: the block at the locale, and the next locale (40_block_core R107). -/
theorem block_of_ready {s : State} {k : Vector Word 8} {r : Nat} (h : Ready s k r) {l : Machine.Locale}
    (hl : s.locale.skip 1 = some l) :
    exec .block s = .next (State.complete (State.setLocale
      { s with blk := transform k (positionWords s.posOrder s.locale) r } l) .ok) := by
  obtain ⟨hk, hr, hn⟩ := checks_of_ready h
  rw [exec, execBlock, validated_of_ready hk hr, hn, hl, State.blockAt, Locale.ofIndex_index]
  rfl

/-- Settles O28: below the last index the advance by one has a locale, whose index is the next. -/
theorem blockCompletesAndAdvancesByOne : Obligations.BlockCompletesAndAdvancesByOne := by
  intro s k r h htop
  rcases Locale.skip_cases s.locale 1 with ⟨-, l, hl, hindex⟩ | ⟨hover, -⟩
  · refine ⟨_, block_of_ready h hl, rfl, rfl, rfl, ?_, rfl⟩
    rw [State.locale_complete, State.locale_setLocale, hindex]
    rfl
  · exact absurd hover (Nat.not_le.mpr (Nat.add_lt_of_lt_sub htop))

/-- Settles O29: with its checks passed BLOCKRAW writes BLK alone. -/
theorem blockrawCompletesOnRawPosition : Obligations.BlockrawCompletesOnRawPosition := by
  intro s k r h
  obtain ⟨hk, hr, hn⟩ := checks_of_ready h
  rw [exec, execBlockraw, validated_of_ready hk hr, hn]
  rfl

end Sys2Proof.Proofs
end

section
/-!
SUPPORT. The views of a block and the position words (spec/40_block_core.md R104, R110 to R113).
-/

namespace Sys2Proof.Proofs

open Machine Claim

/-! ## The byte view -/

/-- Byte `j` of a word, least significant first (40_block_core R110). -/
theorem toNat_wordBytes (w : Word) (j : Fin 4) :
    (wordBytes w)[j.val]?.map BitVec.toNat = some (w.toNat / 2 ^ (8 * j.val) % 256) := by
  fin_cases j <;> simp [wordBytes, BitVec.extractLsb'_toNat, Nat.shiftRight_eq_div_pow]

/-- Byte `4 i + j` of the bytes of some words is byte `j` of word `i` (40_block_core R110). -/
theorem getElem?_flatMap_wordBytes (l : List Word) {i : Nat} (hi : i < l.length) (j : Fin 4) :
    (l.flatMap wordBytes)[4 * i + j.val]? = (wordBytes l[i])[j.val]? := by
  induction l generalizing i with
  | nil => exact absurd hi (Nat.not_lt_zero i)
  | cons w l ih =>
    have hlen : (wordBytes w).length = 4 := rfl
    rw [List.flatMap_cons]
    cases i with
    | zero =>
      rw [Nat.mul_zero, Nat.zero_add]
      exact List.getElem?_append_left j.isLt
    | succ i =>
      rw [List.getElem?_append_right (by omega), hlen, show 4 * (i + 1) + j.val - 4 = 4 * i + j.val by omega]
      exact ih (Nat.lt_of_succ_lt_succ hi)

/-- The words of whole words of bytes: how many they are, and that they have those bytes (40_block_core R113). -/
theorem wordsOfBytes_whole (n : Nat) (b : List Byte) (h : b.length = 4 * n) :
    (wordsOfBytes b).length = n ∧ (wordsOfBytes b).flatMap wordBytes = b := by
  induction n generalizing b with
  | zero =>
    obtain rfl := List.eq_nil_of_length_eq_zero h
    exact ⟨rfl, rfl⟩
  | succ n ih =>
    match b, h with
    | b0 :: b1 :: b2 :: b3 :: bs, h =>
      obtain ⟨hlen, hbytes⟩ := ih bs (by simp only [List.length_cons] at h; omega)
      rw [wordsOfBytes, List.flatMap_cons, wordBytes_join, hbytes, List.length_cons, hlen]
      exact ⟨rfl, rfl⟩

/-- Any 64 bytes are the byte view of a block (40_block_core R113). -/
theorem exists_byteView_eq (b : List Byte) (h : b.length = 64) : ∃ w : Block, byteView w = b := by
  obtain ⟨hlen, hbytes⟩ := wordsOfBytes_whole 16 b h
  exact ⟨⟨(wordsOfBytes b).toArray, by simpa using hlen⟩, by simpa [byteView] using hbytes⟩

/-! ## The 64-bit view -/

/-- Value `i` of the 64-bit view: word 2i in its low half (40_block_core R111). -/
theorem getElem_u64View (w : Block) (i : Fin 8) : (u64View w)[i] = join32 w[2 * i.val + 1] w[2 * i.val] :=
  Vector.getElem_ofFn i.isLt

/-- The 64-bit view of the words of a 64-bit view is that view (40_block_core R113). -/
theorem u64View_unpair (q : Vector (BitVec 64) 8) : u64View (unpair q) = q := by
  apply Vector.ext
  intro i hi
  interval_cases i <;> simp [u64View, unpair]

/-- The words of the 64-bit view of a block are the block (40_block_core R113). -/
theorem unpair_u64View (w : Block) : unpair (u64View w) = w := by
  apply Vector.ext
  intro i hi
  interval_cases i <;> simp [u64View, unpair]

/-- The words of a 64-bit view in order: the low half of each value, then its high half (40_block_core R111). -/
theorem toList_unpair (q : Vector (BitVec 64) 8) :
    (unpair q).toList = q.toList.flatMap fun v => [low32 v, high32 v] := by
  obtain ⟨⟨l⟩, hl⟩ := q
  match l, hl with
  | [_, _, _, _, _, _, _, _], _ => rfl

/-! ## The big integer -/

/-- Words as one number are their bytes in base 256 (40_block_core R112). -/
theorem wordsToNat_eq_sum_bytes (l : List Word) :
    wordsToNat l = ((l.flatMap wordBytes).zipIdx.map fun p => p.1.toNat * 256 ^ p.2).sum := by
  induction l with
  | nil => rfl
  | cons w l ih =>
    have := w.isLt
    rw [List.flatMap_cons, wordBytes]
    simp only [List.cons_append, List.nil_append, sum_zipIdx_cons BitVec.toNat 256, ← ih, wordsToNat,
      BitVec.extractLsb'_toNat, Nat.shiftRight_eq_div_pow]
    omega

/-- The words of 64-bit values as one number are those values in base 2^64 (40_block_core R112). -/
theorem wordsToNat_halves (l : List (BitVec 64)) :
    wordsToNat (l.flatMap fun v => [low32 v, high32 v]) =
      (l.zipIdx.map fun p => p.1.toNat * (2 ^ 64) ^ p.2).sum := by
  induction l with
  | nil => rfl
  | cons v l ih =>
    rw [List.flatMap_cons, sum_zipIdx_cons BitVec.toNat (2 ^ 64), ← ih]
    simp only [List.cons_append, List.nil_append, wordsToNat, toNat_low32, toNat_high32]
    omega

/-- Settles O30: each view is the block's words cut or joined, word by word. -/
theorem blockViewsConvertOneValue : Obligations.BlockViewsConvertOneValue := by
  refine ⟨fun w i j => ?_, fun w i => ?_, fun w => ⟨?_, ?_, wordsToNat_eq_sum_bytes w.toList⟩, fun w => ?_,
    u64View_unpair, exists_byteView_eq⟩
  · rw [byteView, getElem?_flatMap_wordBytes _ (by simp), toNat_wordBytes]
    simp
  · rw [getElem_u64View, toNat_join32, Nat.mul_comm, Nat.add_comm]
  · rw [bigView, ← wordsToNat_eq_sum]
    congr 1
    apply List.ext_getElem
    · simp
    · intro i _ _
      simp only [Vector.getElem_toList, List.getElem_ofFn, Fin.getElem_fin]
  · simp only [pow_mul, ← wordsToNat_halves, ← toList_unpair, unpair_u64View, bigView]
  · exact ⟨byteView_length w, wordsOfBytes_flatMap w.toList, unpair_u64View w⟩

/-- Settles O31: the two halves of each value, as numbers. -/
theorem positionWordsFollowPosOrder : Obligations.PositionWordsFollowPosOrder := by
  intro l
  simp [positionWords, toNat_high32, toNat_low32]

end Sys2Proof.Proofs
end

section
/-!
SUPPORT. Advances past the last locale, and FILLBIG's success (spec/41_locale.md R132 to R139, spec/42_sampling.md R157,
R171 to R175).
-/

namespace Sys2Proof.Proofs

open Machine Claim

/-! ## The advance past the last locale -/

/-- An advance past the last index has no locale (41_locale R132). -/
theorem skip_eq_none {l : Machine.Locale} {n : BitVec 64} (h : top < l.index + n.toNat) : l.skip n = none := by
  rcases Locale.skip_cases l n with ⟨hlt, -⟩ | ⟨-, hnone⟩
  · unfold top at h
    omega
  · exact hnone

/-- The operand N as a number, high word first (10_state R29). -/
theorem toNat_operand (s : State) : 2 ^ 32 * s.nHi.toNat + s.nLo.toNat = s.n.toNat := by
  rw [State.toNat_n, Nat.mul_comm]

/-- The blocks of a 64-bit count of bytes fit in 64 bits. -/
theorem toNat_ofNat_blocksFor (n : BitVec 64) : (BitVec.ofNat 64 (blocksFor n.toNat)).toNat = blocksFor n.toNat := by
  have := n.isLt
  rw [BitVec.toNat_ofNat, Nat.mod_eq_of_lt]
  unfold blocksFor
  omega

/-- FILLB checks the locale last, and before any write (42_sampling R157, 60_exceptions R193). -/
theorem fillb_localeOverflow {s : State} {k : Vector Word 8} {r : Nat} (h : Ready s k r)
    (hd : s.dst.toNat + s.count.toNat ≤ s.outSize) (ho : lastIndex < s.locale.index + blocksFor s.count.toNat) :
    FailsWith .fillb s .localeOverflow := by
  obtain ⟨hk, hr, -⟩ := checks_of_ready h
  have hfits : s.dstFits 1 = true := decide_eq_true (by omega)
  rw [FailsWith, exec, execFillb, validated_of_ready hk hr]
  simp only [hfits, ho, Bool.not_true, Bool.false_eq_true, if_false, if_true]
  rfl

/-- Settles O40: BLOCK, SKIP and MOCK ask for an advance that has no locale, and FILLB compares the indices. -/
theorem advancePastTopIsLocaleOverflow : Obligations.AdvancePastTopIsLocaleOverflow := by
  refine ⟨fun s k r h htop => ?_, fun s hn => ?_, fun s hn => ?_, fun s k r h hd ho => fillb_localeOverflow h hd ho⟩
  · obtain ⟨hk, hr, -⟩ := checks_of_ready h
    have hskip : s.locale.skip 1 = none := skip_eq_none (by rw [htop]; exact Nat.lt_succ_self _)
    rw [FailsWith, exec, execBlock, validated_of_ready hk hr, hskip]
    rfl
  · have hskip : s.locale.skip s.n = none := skip_eq_none (by rwa [← toNat_operand])
    rw [FailsWith, exec, execSkip, hskip]
    rfl
  · have hmock : s.locale.mock s.n = none := by
      rw [Locale.mock_eq_skip]
      apply skip_eq_none
      rwa [toNat_ofNat_blocksFor, ← toNat_operand]
    rw [FailsWith, exec, execMock, hmock]
    rfl

/-! ## FILLBIG's success -/

/-- The values accepted of a stream of attempts, as the laws of the sampling loop state them (42_sampling R171). -/
theorem accepted_attempt (s : State) (k : Vector Word 8) (r range d : Nat) :
    accepted (attempt s k r) range d = taken (smear range) range (attemptAt (s.blockAt k r) s.locale.index) d := by
  unfold attemptAt
  rfl

/-- An element of a run of integers stored is its integer, little-endian two's complement (42_sampling R164, R173). -/
theorem elementIs_of_writeInts {s t : State} {dst n : Nat} {mn : Int} {ms : List Nat}
    (hmem : t.mem = s.mem.writeInts dst n mn ms) {e v : Nat} (hv : ms[e]? = some v) : ElementIs t dst n e (mn + v) := by
  obtain ⟨he, rfl⟩ := List.getElem?_eq_some_iff.mp hv
  rw [ElementIs, State.memRead_of_bytes t n _ (unsignedBits (8 * n) (mn + (ms[e] : Int)))]
  · exact Nat.mod_eq_of_lt (unsignedBits_lt _ _)
  · intro j hj
    apply byte_of_find?
    rw [hmem]
    exact Memory.find?_writeInts_inside _ _ _ _ _ _ _ he hj

/-- FILLBIG with its checks passed ends as its sampling loop does (42_sampling R171). -/
theorem fillbig_of_checks {s : State} {k : Vector Word 8} {r : Nat} (h : Ready s k r)
    (hrange : 2 ≤ bigHigh s - bigLow s) (hw : BoundsInEnvelope s) (hd : s.dst.toNat + s.count.toNat * 64 ≤ s.outSize) :
    exec .fillbig s = storeSamples s 64 (bigLow s)
      (sampleBlocks (s.blockAt k r) (smear (rangeOf (bigLow s) (bigHigh s))) (rangeOf (bigLow s) (bigHigh s))
        (lastIndex - s.locale.index) s.locale.index s.count.toNat) := by
  obtain ⟨hk, hr, hn⟩ := checks_of_ready h
  obtain ⟨hlo, hhi⟩ := inEnvelope_of_boundsInEnvelope hw
  have hfits : s.dstFits 64 = true := decide_eq_true hd
  rw [bigLow] at hlo
  rw [bigHigh] at hhi
  rw [exec, execFillbig, validated_of_ready hk hr, hn]
  simp only [hlo, hhi, hfits, Bool.and_self, Bool.not_true, Bool.false_eq_true, if_false]
  exact if_neg (Int.not_lt.mpr hrange)

/-- A sampling fill whose loop gives its stream's accepted values, and whose last index exists, succeeds
(42_sampling R164, R173). -/
theorem samplingSucceeds_of_values {i : Instr} {s : State} {raw : Nat → Nat} {mn : Int} {range d perBlock esize : Nat}
    (hi : exec i s = storeSamples s esize mn
      (some (accepted raw range d, s.locale.index + (d + perBlock - 1) / perBlock)))
    (hlen : (accepted raw range d).length = s.count.toNat)
    (htop : s.locale.index + (d + perBlock - 1) / perBlock ≤ top) :
    SamplingSucceeds i s raw mn range d perBlock esize := by
  refine ⟨_, hi, rfl, rfl, ?_, fun e v hv => elementIs_of_writeInts rfl hv, rfl, fun x hx => ?_⟩
  · rw [State.locale_complete, State.locale_setLocale]
    exact Locale.index_ofIndex _ (Nat.lt_of_le_pred (by decide) htop)
  · apply byte_congr
    rw [← hlen] at hx
    exact Memory.find?_writeInts_outside _ _ _ hx

/-- Settles O46: the attempts that hold COUNT accepted values are those the sampling loop makes, one block each. -/
theorem fillbigCompletesWithAcceptedBlocks : Obligations.FillbigCompletesWithAcceptedBlocks := by
  intro s k r d h hrange hw hd hdraws htop
  obtain ⟨hlen, hlast⟩ := hdraws
  have hone : (d + 1 - 1) / 1 = d := Nat.div_one d
  have hleft : d ≤ lastIndex - s.locale.index := Nat.le_sub_of_add_le' htop
  have hloop := sampleBlocks_some (s.blockAt k r) (smear (rangeOf (bigLow s) (bigHigh s)))
    (rangeOf (bigLow s) (bigHigh s)) _ s.locale.index s.count.toNat d (by rw [← accepted_attempt, hlen])
    (by unfold attemptAt; exact hlast) hleft
  apply samplingSucceeds_of_values _ hlen
  · rwa [hone]
  · rw [fillbig_of_checks h hrange hw hd, hloop, accepted_attempt, hone]

end Sys2Proof.Proofs
end

section
/-!
SUPPORT. The locale family: the index as a number in base 2^64, Skip and Mock as additions on it, SKIP and MOCK, and the
direction in which every command moves the locale (spec/41_locale.md R130 to R139).
-/

namespace Sys2Proof.Proofs

open Machine Claim

/-! ## The index -/

/-- No locale passes the last index (41_locale R130). -/
theorem index_le_top (l : Machine.Locale) : l.index ≤ top := Nat.le_pred_of_lt l.index_lt

/-- Up to the last index, the locale at an index has that index (41_locale R130). -/
theorem index_ofIndex_of_le_top {i : Nat} (h : i ≤ top) : (Machine.Locale.ofIndex i).index = i :=
  Locale.index_ofIndex i (Nat.lt_of_le_pred (by decide) h)

/-- The order of indices, the stream being the high digit in base 2^64 (41_locale R131). -/
theorem index_lt_index_iff (l m : Machine.Locale) :
    l.index < m.index ↔ l.stream < m.stream ∨ (l.stream = m.stream ∧ l.pebble < m.pebble) := by
  have hl := l.pebble.isLt
  have hm := m.pebble.isLt
  rw [Locale.index, Locale.index, BitVec.lt_def, BitVec.lt_def, ← BitVec.toNat_inj]
  omega

/-- Settles O32: the index is a number of two digits in base 2^64. -/
theorem localeIndexIsOrderedBijection : Obligations.LocaleIndexIsOrderedBijection :=
  ⟨fun l => ⟨Locale.ofIndex_index l, index_le_top l⟩, fun _ => index_ofIndex_of_le_top, index_lt_index_iff⟩

/-! ## Skip and Mock -/

/-- The locale Skip gives has the sum as its index (41_locale R132). -/
theorem index_of_skip_eq_some {l m : Machine.Locale} {n : BitVec 64} (h : l.skip n = some m) :
    m.index = l.index + n.toNat := by
  rcases Locale.skip_cases l n with ⟨-, m', hm', hindex⟩ | ⟨-, hnone⟩
  · rw [hm'] at h
    cases h
    exact hindex
  · rw [hnone] at h
    cases h

/-- Up to the last index Skip gives the locale at the sum (41_locale R132). -/
theorem skip_eq_some {l : Machine.Locale} {n : BitVec 64} (h : l.index + n.toNat ≤ top) :
    l.skip n = some (Machine.Locale.ofIndex (l.index + n.toNat)) := by
  rcases Locale.skip_cases l n with ⟨-, m, hm, hindex⟩ | ⟨hover, -⟩
  · rw [hm, ← hindex, Locale.ofIndex_index]
  · unfold top at h
    omega

/-- Settles O33: all that Skip can do is one of the two. -/
theorem skipIsAdditionOnTheIndex : Obligations.SkipIsAdditionOnTheIndex := fun _ _ => ⟨skip_eq_some, skip_eq_none⟩

/-- The locale Mock gives has the index moved on by the blocks of its bytes (41_locale R134). -/
theorem index_of_mock_eq_some {l m : Machine.Locale} {n : BitVec 64} (h : l.mock n = some m) :
    m.index = l.index + blocksFor n.toNat := by
  rw [Locale.mock_eq_skip] at h
  rw [index_of_skip_eq_some h, toNat_ofNat_blocksFor]

/-- Up to the last index Mock gives the locale moved on by the blocks of its bytes (41_locale R134). -/
theorem mock_eq_some {l : Machine.Locale} {n : BitVec 64} (h : l.index + blocksFor n.toNat ≤ top) :
    l.mock n = some (Machine.Locale.ofIndex (l.index + blocksFor n.toNat)) := by
  rw [← toNat_ofNat_blocksFor] at h ⊢
  rw [Locale.mock_eq_skip, skip_eq_some h]

/-- Past the last index Mock gives no locale (41_locale R134). -/
theorem mock_eq_none {l : Machine.Locale} {n : BitVec 64} (h : top < l.index + blocksFor n.toNat) :
    l.mock n = none := by
  rw [← toNat_ofNat_blocksFor] at h
  rw [Locale.mock_eq_skip, skip_eq_none h]

/-- Skip by 0 stays at the locale (41_locale R133). -/
theorem skip_zero (l : Machine.Locale) : l.skip 0 = some l := by
  have hindex : l.index + (0 : BitVec 64).toNat = l.index := Nat.add_zero _
  rw [skip_eq_some (hindex.trans_le (index_le_top l)), hindex, Locale.ofIndex_index]

/-- Mock by 0 stays at the locale (41_locale R133). -/
theorem mock_zero (l : Machine.Locale) : l.mock 0 = some l := if_pos rfl

/-- A positive count of bytes needs a block (41_locale R134). -/
theorem blocksFor_pos {n : Nat} (h : 0 < n) : 0 < blocksFor n := by
  unfold blocksFor
  omega

/-- Settles O35: the index grows by 1, and the pebble is its low digit in base 2^64. -/
theorem oneBlockWrapCarriesIntoStream : Obligations.OneBlockWrapCarriesIntoStream := by
  intro l m h
  have hindex : m.index = l.index + 1 := index_of_skip_eq_some h
  have hl := l.pebble.isLt
  have hm := m.pebble.isLt
  have hzero : m.pebble = 0 ↔ m.pebble.toNat = 0 := BitVec.toNat_inj.symm
  rw [Locale.index, Locale.index] at hindex
  rw [ne_eq, hzero, ← BitVec.toNat_inj]
  omega

/-! ## SKIP and MOCK -/

/-- An advance that keeps within the last index completes, and writes the locale alone (41_locale R137 to R139). -/
theorem advanceTo_ofIndex_completes {s : State} {d : Nat} (h : s.locale.index + d ≤ top) :
    ∃ t, advanceTo (some (Machine.Locale.ofIndex (s.locale.index + d))) s = .next t ∧ t.err = .ok ∧ t.busy = false ∧
      t.locale.index = s.locale.index + d ∧ OnlyLocaleChanges s t := by
  refine ⟨_, rfl, rfl, rfl, ?_, rfl⟩
  exact (congrArg Machine.Locale.index (State.locale_setLocale s _)).trans (index_ofIndex_of_le_top h)

/-- Settles O36: Skip by N and Mock by N are additions of N and ceil(N / 64) on the index. -/
theorem skipAndMockCompleteByTheirCounts : Obligations.SkipAndMockCompleteByTheirCounts := by
  refine ⟨fun s h => ?_, fun s h => ?_⟩ <;> rw [toNat_operand] at h ⊢
  · rw [exec, execSkip, skip_eq_some h]
    exact advanceTo_ofIndex_completes h
  · rw [exec, execMock, mock_eq_some h]
    exact advanceTo_ofIndex_completes h

/-- An advance to the locale held completes and leaves it as it was (41_locale R133). -/
theorem advanceTo_own_locale_completes (s : State) :
    ∃ t, advanceTo (some s.locale) s = .next t ∧ t.err = .ok ∧ t.locale = s.locale :=
  ⟨_, rfl, rfl, State.locale_setLocale s _⟩

/-- Settles O34: an addition of 0 on the index changes nothing, and one of more passes the last index. -/
theorem zeroAdvanceIsIdentityAndTopIsFinal : Obligations.ZeroAdvanceIsIdentityAndTopIsFinal := by
  refine ⟨fun l => ⟨skip_zero l, mock_zero l⟩, fun n hn => ?_, fun s hlo hhi i hi => ?_, fun s htop hn i hi => ?_⟩
  · have hpos : 0 < n.toNat := Nat.pos_of_ne_zero fun h => hn (BitVec.eq_of_toNat_eq h)
    have hindex := index_ofIndex_of_le_top (le_refl top)
    exact ⟨skip_eq_none (by omega), mock_eq_none (by have := blocksFor_pos hpos; omega)⟩
  · have hn : s.n = 0 := by
      rw [State.n, hlo, hhi]
      rfl
    simp only [List.mem_cons, List.not_mem_nil, or_false] at hi
    rcases hi with rfl | rfl
    · rw [exec, execSkip, hn, skip_zero]
      exact advanceTo_own_locale_completes s
    · rw [exec, execMock, hn, mock_zero]
      exact advanceTo_own_locale_completes s
  · have hpos : 0 < 2 ^ 32 * s.nHi.toNat + s.nLo.toNat := by
      rcases hn with hlo | hhi
      · have : s.nLo.toNat ≠ 0 := fun h => hlo (BitVec.eq_of_toNat_eq h)
        omega
      · have : s.nHi.toNat ≠ 0 := fun h => hhi (BitVec.eq_of_toNat_eq h)
        omega
    obtain ⟨-, hskip, hmock, -⟩ := advancePastTopIsLocaleOverflow
    simp only [List.mem_cons, List.not_mem_nil, or_false] at hi
    rcases hi with rfl | rfl
    · exact hskip s (by omega)
    · exact hmock s (by omega)

/-! ## The direction of every command -/

/-- An advance to a locale no lower, or to none, does not move the locale back (41_locale R137). -/
theorem advanceTo_index_le {s t : State} {o : Option Machine.Locale} (ho : ∀ l, o = some l → s.locale.index ≤ l.index)
    (h : advanceTo o s = .next t) : s.locale.index ≤ t.locale.index := by
  rcases advanceTo_cases o s with ⟨-, h'⟩ | ⟨l, hl, h'⟩ <;> rw [h'] at h <;> cases h
  · exact le_refl _
  · rw [State.locale_complete, State.locale_setLocale]
    exact ho l hl

/-- A sampling loop that ends between its first index and the last one does not move the locale back (42_sampling R164,
R172). -/
theorem storeSamples_index_le {s t : State} {n : Nat} {mn : Int} {o : Option (List Nat × Nat)}
    (ho : ∀ ms j, o = some (ms, j) → s.locale.index ≤ j ∧ j ≤ s.locale.index + (lastIndex - s.locale.index))
    (h : storeSamples s n mn o = .next t) : s.locale.index ≤ t.locale.index := by
  rcases storeSamples_cases s n mn o with ⟨-, h'⟩ | ⟨ms, j, hj, h'⟩ <;> rw [h'] at h <;> cases h
  · exact le_refl _
  · obtain ⟨hle, hlast⟩ := ho ms j hj
    have htop : j ≤ top := hlast.trans_eq (Nat.add_sub_cancel' (index_le_top s.locale))
    rwa [State.locale_complete, State.locale_setLocale, index_ofIndex_of_le_top htop]

/-- FILLI of each width does not move the locale back (42_sampling R161). -/
theorem fillInts_index_le {s t : State} {w : Nat} (h : fillInts w s = .next t) : s.locale.index ≤ t.locale.index := by
  rcases fillInts_cases w s with ⟨e, -, h'⟩ | ⟨k, -, -, -, h'⟩ <;> rw [h'] at h
  · cases h
    exact le_refl _
  · refine storeSamples_index_le (fun ms j ho => ?_) h
    obtain ⟨-, -, hj⟩ := sampleDraws_spec ho
    exact hj

/-- Settles O22: a command that fails keeps the locale, and one that succeeds adds to its index or keeps it. -/
theorem commandsNeverMoveLocaleBack : Obligations.CommandsNeverMoveLocaleBack := by
  intro i s t h
  cases i with
  | block =>
    rw [exec] at h
    rcases execBlock_cases s with ⟨e, -, h'⟩ | ⟨k, l, -, hl, h'⟩ <;> rw [h'] at h <;> cases h
    · exact le_refl _
    · rw [State.locale_complete, State.locale_setLocale, index_of_skip_eq_some hl]
      exact Nat.le_add_right _ _
  | blockraw => rw [(exec_writesOnlyItsOwn h).locale fun ⟨hraw, _⟩ => hraw rfl]
  | skip => exact advanceTo_index_le (fun l hl => by rw [index_of_skip_eq_some hl]; exact Nat.le_add_right _ _) h
  | mock => exact advanceTo_index_le (fun l hl => by rw [index_of_mock_eq_some hl]; exact Nat.le_add_right _ _) h
  | fillb =>
    rw [exec] at h
    rcases execFillb_cases s with ⟨e, -, h'⟩ | ⟨k, -, -, hlast, h'⟩ <;> rw [h'] at h <;> cases h
    · exact le_refl _
    · rw [State.locale_complete, State.locale_setLocale, index_ofIndex_of_le_top hlast]
      exact Nat.le_add_right _ _
  | filli8 => exact fillInts_index_le (w := 8) h
  | filli16 => exact fillInts_index_le (w := 16) h
  | filli32 => exact fillInts_index_le (w := 32) h
  | filli64 => exact fillInts_index_le (w := 64) h
  | fillbig =>
    rw [exec] at h
    rcases execFillbig_cases s with ⟨e, -, h'⟩ | ⟨k, -, -, -, -, -, h'⟩ <;> rw [h'] at h
    · cases h
      exact le_refl _
    · refine storeSamples_index_le (fun ms j ho => ?_) h
      obtain ⟨-, -, hj⟩ := sampleBlocks_spec ho
      exact hj
  | qround a b c d => rw [(exec_writesOnlyItsOwn h).locale fun ⟨_, hq⟩ => hq a b c d rfl]

end Sys2Proof.Proofs
end

section
/-!
SUPPORT. The checks of the transform commands in their order (spec/60_exceptions.md R193): the kernel, the rounds, the
range and the width (spec/42_sampling.md R150, R153, R170).
-/

namespace Sys2Proof.Proofs

open Machine Claim

/-! ## The kernel and the rounds -/

/-- A command that runs the transform makes the checks of `validated` first, whatever it does after them (42_sampling
R150). -/
theorem exec_eq_validated (s : State) : ∀ i ∈ transformCommands, ∃ rest, exec i s = validated s rest := by
  simp only [transformCommands, List.forall_mem_cons, exec, execBlock, execBlockraw, execFillb, execFilli8, execFilli16,
    execFilli32, execFilli64, fillInts, execFillbig]
  exact ⟨⟨_, rfl⟩, ⟨_, rfl⟩, ⟨_, rfl⟩, ⟨_, rfl⟩, ⟨_, rfl⟩, ⟨_, rfl⟩, ⟨_, rfl⟩, ⟨_, rfl⟩,
    fun _ h => absurd h List.not_mem_nil⟩

/-- KEYMASK is all ones exactly when the kernel is loaded (10_state R26, R27). -/
theorem keyMask_eq_iff (s : State) : s.keyMask = 0xFF#8 ↔ ∃ k, s.kernel? = some k := by
  rw [← Option.isSome_iff_exists, State.kernel?_isSome]
  constructor
  · intro h i
    rw [← State.getLsbD_keyMask, h]
    exact BitVec.getLsbD_allOnes.trans (decide_eq_true i.isLt)
  · intro h
    apply BitVec.eq_of_getLsbD_eq
    intro i hi
    exact (State.getLsbD_keyMask s ⟨i, hi⟩).trans
      ((h ⟨i, hi⟩).trans (BitVec.getLsbD_allOnes.trans (decide_eq_true hi)).symm)

/-- Settles O37: `validated` looks at the kernel and then at the rounds, and KEYMASK tells whether there is a kernel. -/
theorem kernelThenRoundsAreCheckedFirst : Obligations.KernelThenRoundsAreCheckedFirst := by
  refine ⟨fun i hi s hmask => ?_, fun i hi s hmask hrounds => ?_, fun s => ?_⟩
  · have hk : s.kernel? = none := by
      rwa [ne_eq, keyMask_eq_iff, ← Option.isSome_iff_exists, Option.not_isSome_iff_eq_none] at hmask
    obtain ⟨rest, h⟩ := exec_eq_validated s i hi
    rw [FailsWith, h, validated, hk]
    rfl
  · obtain ⟨k, hk⟩ := (keyMask_eq_iff s).mp hmask
    have hr : roundsValid s.roundCount = false := decide_eq_false hrounds
    obtain ⟨rest, h⟩ := exec_eq_validated s i hi
    rw [FailsWith, h, validated, hk, hr]
    rfl
  · simp only [keyMask_eq_iff, State.kernel?_eq_some, KernelIs]

/-! ## The range and the width -/

/-- A bound outside the envelope fails FILLBIG's width check (42_sampling R170). -/
theorem inEnvelope_eq_false {s : State} (h : ¬ BoundsInEnvelope s) :
    (inEnvelope (bigLow s) && inEnvelope (bigHigh s)) = false := by
  rw [← Bool.not_eq_true, Bool.and_eq_true, inEnvelope, inEnvelope, decide_eq_true_iff, decide_eq_true_iff, and_assoc]
  exact h

section

variable {s : State} {k : Vector Word 8} {r : Nat} (h : Ready s k r)
include h

/-- FILLI checks its range after the kernel and the rounds (60_exceptions R193). -/
theorem fillInts_invalidRange {w : Nat} (hrange : highBound w s - lowBound w s < 2) :
    fillInts w s = raise .invalidRange s := by
  obtain ⟨hk, hr, -⟩ := checks_of_ready h
  rw [fillInts, validated_of_ready hk hr]
  exact if_pos hrange

/-- FILLBIG checks its range after the kernel and the rounds (60_exceptions R193). -/
theorem fillbig_invalidRange (hrange : bigHigh s - bigLow s < 2) : FailsWith .fillbig s .invalidRange := by
  obtain ⟨hk, hr, -⟩ := checks_of_ready h
  rw [FailsWith, exec, execFillbig, validated_of_ready hk hr]
  exact if_pos hrange

/-- FILLBIG checks its width after the range (60_exceptions R193). -/
theorem fillbig_invalidWidth (hrange : 2 ≤ bigHigh s - bigLow s) (hw : ¬ BoundsInEnvelope s) :
    FailsWith .fillbig s .invalidWidth := by
  obtain ⟨hk, hr, -⟩ := checks_of_ready h
  have hout := inEnvelope_eq_false hw
  rw [bigLow, bigHigh] at hout
  rw [FailsWith, exec, execFillbig, validated_of_ready hk hr]
  simp only [hout, Bool.not_false, if_true]
  exact if_neg (Int.not_lt.mpr hrange)

end

/-- Settles O38: in each fill the check named is the first one that fails. -/
theorem boundsAreCheckedForRangeThenWidth : Obligations.BoundsAreCheckedForRangeThenWidth := by
  intro s k r h
  refine ⟨fun p hp hrange => ?_, fillbig_invalidRange h, fillbig_invalidWidth h⟩
  exact (exec_narrowFill s p hp).trans (fillInts_invalidRange h hrange)

end Sys2Proof.Proofs
end

section
/-!
SUPPORT. The mask of a range (spec/42_sampling.md R152, R166): the least all-ones value that covers the range, the
doubling shifts that build it, and how much of it is accepted.
-/

namespace Sys2Proof.Proofs

open Machine Claim

/-- The bit length is the least number of bits that hold a number (00_scope R11). -/
theorem bitlen_le_iff {r n : Nat} : bitlen r ≤ n ↔ r < 2 ^ n := by
  unfold bitlen
  split
  · next h => simp [h]
  · next h => exact Nat.log2_lt h

/-- The mask and one more is a power of two. -/
theorem smear_add_one (r : Nat) : smear r + 1 = 2 ^ bitlen r := Nat.sub_add_cancel Nat.one_le_two_pow

/-- The mask covers its range (42_sampling R152). -/
theorem le_smear (r : Nat) : r ≤ smear r := by
  have h : r < 2 ^ bitlen r := bitlen_le_iff.mp le_rfl
  rw [← smear_add_one] at h
  exact Nat.le_of_lt_succ h

/-- No all-ones value that covers the range is below the mask (42_sampling R152). -/
theorem smear_le {r n : Nat} (h : r ≤ 2 ^ n - 1) : smear r ≤ 2 ^ n - 1 := by
  have hn : bitlen r ≤ n := bitlen_le_iff.mpr (Nat.lt_of_le_pred Nat.one_le_two_pow h)
  exact Nat.sub_le_sub_right (Nat.pow_le_pow_right (by decide) hn) 1

/-- A bit of the mask is set exactly when the range has that bit or a higher one (42_sampling R152). -/
theorem testBit_smear (r i : Nat) : (smear r).testBit i = true ↔ ∃ j, r.testBit (i + j) = true := by
  rw [smear, Nat.testBit_two_pow_sub_one, decide_eq_true_iff, ← not_le, bitlen_le_iff, not_lt]
  constructor
  · intro h
    obtain ⟨m, hm, hbit⟩ := Nat.exists_ge_and_testBit_of_ge_two_pow h
    exact ⟨m - i, by rwa [Nat.add_sub_cancel' hm]⟩
  · rintro ⟨j, hbit⟩
    exact (Nat.pow_le_pow_right (by decide) (Nat.le_add_right i j)).trans (Nat.ge_two_pow_of_testBit hbit)

/-- The mask as R152 constructs it: the range, or-ed with itself shifted right by 1, 2, 4 and so on, `b` times. -/
def doublingShifts (b range : Nat) : Nat :=
  (List.range b).foldl (fun mask s => mask ||| (mask >>> 2 ^ s)) range

/-- After `b` doubling shifts a bit is set exactly when the range has one of the `2 ^ b` bits from there up. -/
theorem testBit_doublingShifts (b range i : Nat) :
    (doublingShifts b range).testBit i = true ↔ ∃ j < 2 ^ b, range.testBit (i + j) = true := by
  induction b generalizing i with
  | zero => simp [doublingShifts]
  | succ b ih =>
    have hstep : doublingShifts (b + 1) range = doublingShifts b range ||| doublingShifts b range >>> 2 ^ b := by
      rw [doublingShifts, List.range_succ, List.foldl_append]
      rfl
    rw [hstep, Nat.testBit_or, Nat.testBit_shiftRight, Bool.or_eq_true, ih, ih, pow_succ]
    constructor
    · rintro (⟨j, hj, hbit⟩ | ⟨j, hj, hbit⟩)
      · exact ⟨j, by omega, hbit⟩
      · exact ⟨2 ^ b + j, by omega, by rwa [← Nat.add_assoc, Nat.add_comm i]⟩
    · rintro ⟨j, hj, hbit⟩
      by_cases hlow : j < 2 ^ b
      · exact .inl ⟨j, hlow, hbit⟩
      · exact .inr ⟨j - 2 ^ b, by omega, by rwa [show 2 ^ b + i + (j - 2 ^ b) = i + j by omega]⟩

/-- At a width that holds the range the doubling shifts reach every bit below the range's highest (42_sampling R152). -/
theorem doublingShifts_eq_smear {b range : Nat} (h : range < 2 ^ 2 ^ b) : doublingShifts b range = smear range := by
  apply Nat.eq_of_testBit_eq
  intro i
  rw [Bool.eq_iff_iff, testBit_doublingShifts, testBit_smear]
  constructor
  · rintro ⟨j, -, hbit⟩
    exact ⟨j, hbit⟩
  · rintro ⟨j, hbit⟩
    have hlt : 2 ^ (i + j) < 2 ^ 2 ^ b := (Nat.ge_two_pow_of_testBit hbit).trans_lt h
    have hj : i + j < 2 ^ b := (Nat.pow_lt_pow_iff_right (by decide)).mp hlt
    exact ⟨j, by omega, hbit⟩

/-- A positive range holds its own highest bit, half of the masked values (42_sampling R166). -/
theorem smear_lt_double {r : Nat} (h : 1 ≤ r) : smear r + 1 ≤ 2 * r := by
  have hpos : bitlen r ≠ 0 := fun h0 => Nat.not_lt.mpr h (bitlen_le_iff.mp h0.le)
  obtain ⟨b, hb⟩ := Nat.exists_eq_succ_of_ne_zero hpos
  have hhalf : 2 ^ b ≤ r := Nat.not_lt.mp fun hlt => absurd (bitlen_le_iff.mpr hlt) (by omega)
  rw [smear_add_one, hb, pow_succ]
  omega

/-- Every number up to the range is a masked value that is accepted (42_sampling R161, R166). -/
theorem lt_length_accepted_values (r : Nat) :
    r < ((List.range (smear r + 1)).filter fun m => decide (m ≤ r)).length := by
  have hall : (List.range (r + 1)).filter (fun m => decide (m ≤ r)) = List.range (r + 1) :=
    List.filter_eq_self.mpr fun m hm => decide_eq_true (Nat.le_of_lt_succ (List.mem_range.mp hm))
  have hsub := (List.range_sublist.mpr (Nat.succ_le_succ (le_smear r))).filter fun m => decide (m ≤ r)
  have hlen := hsub.length_le
  rwa [hall, List.length_range] at hlen

/-- Settles O41: the mask is one less than the power of two at the range's bit length. -/
theorem smearIsLeastAllOnesMaskAndAcceptsOverHalf : Obligations.SmearIsLeastAllOnesMaskAndAcceptsOverHalf := by
  refine ⟨fun range => ⟨⟨_, rfl⟩, le_smear range, fun n => smear_le⟩, fun b range => doublingShifts_eq_smear,
    fun range h => ?_⟩
  have := smear_lt_double h
  have := lt_length_accepted_values range
  omega

end Sys2Proof.Proofs
end

section
/-!
SUPPORT. The fills' results (spec/42_sampling.md R157 to R176): FILLB's locale as MOCK's, FILLI's success, the overflow of
the sampling fills, and the interval of the values they write.
-/

namespace Sys2Proof.Proofs

open Machine Claim

/-! ## FILLB and MOCK -/

/-- FILLB moves the locale as MOCK does from the same locale with N equal to COUNT: both add the blocks of that many bytes
to the index, or find that this passes the last one (42_sampling R157, R158). -/
theorem fillb_moves_as_mock {s m t u : State} {k : Vector Word 8} {r : Nat} (h : Ready s k r)
    (hfit : s.dst.toNat + s.count.toNat ≤ s.outSize) (hm : m.locale = s.locale) (hn : m.n.toNat = s.count.toNat)
    (ht : exec .fillb s = .next t) (hu : exec .mock m = .next u) : t.err = u.err ∧ t.locale = u.locale := by
  rw [exec, execMock, hm] at hu
  by_cases htop : s.locale.index + blocksFor s.count.toNat ≤ top
  · obtain ⟨t', ht', -, herr, hloc, -⟩ := fillb_of_ready h hfit htop
    rw [mock_eq_some (by rwa [hn]), hn] at hu
    rw [ht'] at ht
    cases ht
    cases hu
    exact ⟨herr, hloc.trans (State.locale_setLocale m _).symm⟩
  · have hover : exec .fillb s = _ := fillb_localeOverflow h hfit (Nat.not_le.mp htop)
    rw [mock_eq_none (by rw [hn]; exact Nat.not_le.mp htop)] at hu
    rw [hover] at ht
    cases ht
    cases hu
    exact ⟨rfl, hm.symm⟩

/-- Settles O43: N is COUNT with a high word of 0. -/
theorem fillbMovesLocaleAsMock : Obligations.FillbMovesLocaleAsMock := by
  intro s k r t u h hfit ht hu
  refine fillb_moves_as_mock (m := { s with nLo := s.count, nHi := 0 }) h hfit rfl ?_ ht hu
  simp [State.toNat_n]

/-! ## FILLI's success -/

/-- The values accepted of a stream of draws, as the laws of the sampling loop state them (42_sampling R160, R161). -/
theorem accepted_draw (s : State) (k : Vector Word 8) (r range d : Nat) :
    accepted (draw s k r) range d = taken (smear range) range (drawAt (s.blockAt k r) s.locale.index) d := by
  unfold drawAt
  rfl

/-- FILLI with its checks passed ends as its sampling loop does (42_sampling R161). -/
theorem fillInts_of_checks {s : State} {k : Vector Word 8} {r w : Nat} (h : Ready s k r)
    (hrange : 2 ≤ highBound w s - lowBound w s) (hd : s.dst.toNat + s.count.toNat * (w / 8) ≤ s.outSize) :
    fillInts w s = storeSamples s (w / 8) (lowBound w s)
      (sampleDraws (s.blockAt k r) (smear (rangeOf (lowBound w s) (highBound w s)))
        (rangeOf (lowBound w s) (highBound w s)) (lastIndex - s.locale.index) s.locale.index s.count.toNat) := by
  obtain ⟨hk, hr, hn⟩ := checks_of_ready h
  have hfits : s.dstFits (w / 8) = true := decide_eq_true hd
  rw [fillInts, validated_of_ready hk hr, hn]
  simp only [hfits, Bool.not_true, Bool.false_eq_true, if_false]
  exact if_neg (Int.not_lt.mpr hrange)

/-- Settles O45: the draws that hold COUNT accepted values are those the sampling loop makes, eight from each block. -/
theorem filliCompletesWithAcceptedDraws : Obligations.FilliCompletesWithAcceptedDraws := by
  rintro ⟨i, w⟩ hp s k r d h hrange hd hdraws htop
  obtain ⟨hlen, hlast⟩ := hdraws
  have hleft : (d + 7) / 8 ≤ lastIndex - s.locale.index := Nat.le_sub_of_add_le' htop
  have hloop := sampleDraws_some (s.blockAt k r) (smear (rangeOf (lowBound w s) (highBound w s)))
    (rangeOf (lowBound w s) (highBound w s)) _ s.locale.index s.count.toNat d (by rw [← accepted_draw, hlen])
    (by unfold drawAt; exact hlast) hleft
  apply samplingSucceeds_of_values _ hlen htop
  rw [exec_narrowFill s _ hp, fillInts_of_checks h hrange hd, hloop, accepted_draw]
  rfl

/-! ## The overflow of a sampling fill -/

/-- A sampling fill whose loop runs out of blocks ends with LocaleOverflow and a free destination (42_sampling R172). -/
theorem samplingOverflows_of_none {i : Instr} {s : State} {mn : Int} {esize : Nat}
    (hi : exec i s = storeSamples s esize mn none) : SamplingOverflows i s esize := by
  refine ⟨_, hi, rfl, rfl, fun j hj => ⟨s.fresh + j, byte_of_find? ?_⟩, rfl, fun x hx => byte_congr ?_⟩
  · exact Memory.find?_setFree_inside _ _ _ _ _ hj
  · exact Memory.find?_setFree_outside _ _ hx

/-- Settles O47: the draws of the whole remaining address space are all that the sampling loop can make. -/
theorem samplingPastTopLeavesDestinationFree : Obligations.SamplingPastTopLeavesDestinationFree := by
  constructor
  · rintro ⟨i, w⟩ hp s k r h hrange hd hfew
    rw [accepted_draw] at hfew
    apply samplingOverflows_of_none
    rw [exec_narrowFill s _ hp, fillInts_of_checks h hrange hd,
      sampleDraws_none _ _ _ (lastIndex - s.locale.index) _ _ hfew]
  · intro s k r h hrange hw hd hfew
    rw [accepted_attempt] at hfew
    apply samplingOverflows_of_none
    rw [fillbig_of_checks h hrange hw hd,
      sampleBlocks_none _ _ _ (lastIndex - s.locale.index) _ _ hfew]

/-! ## The interval of the values written -/

/-- An element read as a signed integer of its size is the integer it holds, where that fits (42_sampling R164, R173). -/
theorem toInt_of_elementIs {t : State} {dst n e : Nat} {v : Int} (h : ElementIs t dst n e v) (hn : 0 < n)
    (hlo : -2 ^ (8 * n - 1) ≤ v) (hhi : v < 2 ^ (8 * n - 1)) :
    (BitVec.ofNat (8 * n) (t.memRead (dst + e * n) n)).toInt = v := by
  rw [ElementIs] at h
  rw [h]
  show (BitVec.ofNat (8 * n) (unsignedBits (8 * n) v)).toInt = v
  rw [ofNat_unsignedBits]
  exact BitVec.toInt_ofInt_eq_self (by omega) hlo hhi

/-- A sampling fill that completes with OK has stored the values its loop gave (42_sampling R164, R173). -/
theorem storeSamples_mem_of_ok {s t : State} {n : Nat} {mn : Int} {o : Option (List Nat × Nat)}
    (h : storeSamples s n mn o = .next t) (hok : t.err = .ok) :
    ∃ ms j, o = some (ms, j) ∧ t.mem = s.mem.writeInts s.dst.toNat n mn ms := by
  rcases storeSamples_cases s n mn o with ⟨-, h'⟩ | ⟨ms, j, ho, h'⟩ <;> rw [h'] at h <;> cases h
  · cases hok
  · exact ⟨ms, j, ho, rfl⟩

/-- A sampling fill that completes with OK, and whose loop gives COUNT values in range, has written elements that lie in
the interval, where its bounds fit in an element (42_sampling R162, R173). -/
theorem storeSamples_in_interval {s t : State} {n : Nat} {mn mx : Int} {o : Option (List Nat × Nat)} (hn : 0 < n)
    (hlo : -2 ^ (8 * n - 1) ≤ mn) (hhi : mx ≤ 2 ^ (8 * n - 1)) (hrange : 2 ≤ mx - mn)
    (ho : ∀ ms j, o = some (ms, j) → ms.length = s.count.toNat ∧ ∀ m ∈ ms, m ≤ rangeOf mn mx)
    (h : storeSamples s n mn o = .next t) (hok : t.err = .ok) {e : Nat} (he : e < s.count.toNat) :
    let v := (BitVec.ofNat (8 * n) (t.memRead (s.dst.toNat + e * n) n)).toInt
    mn ≤ v ∧ v < mx := by
  obtain ⟨ms, j, hs, hmem⟩ := storeSamples_mem_of_ok h hok
  obtain ⟨hlen, hin⟩ := ho ms j hs
  rw [← hlen] at he
  have hm : ms[e] ≤ rangeOf mn mx := hin _ (List.getElem_mem he)
  have hlt : mn + (ms[e] : Int) < mx := by
    unfold rangeOf at hm
    omega
  have helem := elementIs_of_writeInts hmem (List.getElem?_eq_getElem he)
  simp only [toInt_of_elementIs helem hn (by omega) (by omega)]
  exact ⟨by omega, hlt⟩

/-- No bound of FILLI is below what an element of its width can hold (10_state R34). -/
theorem le_narrowBound (w : Nat) (v : Vector Word 17) : -2 ^ (w - 1) ≤ narrowBound w v := BitVec.le_toInt _

/-- No bound of FILLI is above what an element of its width can hold (10_state R34). -/
theorem narrowBound_lt (w : Nat) (v : Vector Word 17) : narrowBound w v < 2 ^ (w - 1) := BitVec.toInt_lt

/-- FILLI of a width of whole bytes writes values in its interval (42_sampling R162). -/
theorem fillInts_in_interval {s t : State} {n : Nat} (hn : 0 < n) (h : fillInts (8 * n) s = .next t) (hok : t.err = .ok)
    {e : Nat} (he : e < s.count.toNat) :
    let v := (BitVec.ofNat (8 * n) (t.memRead (s.dst.toNat + e * n) n)).toInt
    lowBound (8 * n) s ≤ v ∧ v < highBound (8 * n) s := by
  rcases fillInts_cases (8 * n) s with ⟨e, hne, h'⟩ | ⟨k, -, hrange, -, h'⟩ <;> rw [h'] at h
  · cases h
    rcases hne with rfl | rfl | rfl | rfl <;> cases hok
  · rw [Nat.mul_div_cancel_left n (by decide)] at h
    refine storeSamples_in_interval hn (le_narrowBound _ _) (narrowBound_lt _ _).le hrange (fun ms j ho => ?_) h hok he
    obtain ⟨hlen, hin, -⟩ := sampleDraws_spec ho
    exact ⟨hlen, hin⟩

/-- FILLBIG writes values in its interval (42_sampling R173). -/
theorem fillbig_in_interval {s t : State} (h : execFillbig s = .next t) (hok : t.err = .ok) {e : Nat}
    (he : e < s.count.toNat) :
    let v := (BitVec.ofNat 512 (t.memRead (s.dst.toNat + e * 64) 64)).toInt
    bigLow s ≤ v ∧ v < bigHigh s := by
  rcases execFillbig_cases s with ⟨e, hne, h'⟩ | ⟨k, -, hrange, hlo, hhi, -, h'⟩ <;> rw [h'] at h
  · cases h
    rcases hne with rfl | rfl | rfl | rfl | rfl <;> cases hok
  · obtain ⟨hlo, -⟩ := of_decide_eq_true hlo
    obtain ⟨-, hhi⟩ := of_decide_eq_true hhi
    refine storeSamples_in_interval (n := 64) (by decide) hlo (by omega) hrange (fun ms j ho => ?_) h hok he
    obtain ⟨hlen, hin, -⟩ := sampleBlocks_spec ho
    exact ⟨hlen, hin⟩

/-- Settles O48: each width is a whole number of bytes, and a fill that completes with OK has stored values in range. -/
theorem sampledValuesLieInTheInterval : Obligations.SampledValuesLieInTheInterval := by
  refine ⟨?_, fun s t h hok e he => fillbig_in_interval h hok he⟩
  simp only [narrowFills, List.forall_mem_cons]
  exact ⟨fun s t h hok e he => fillInts_in_interval (n := 1) (by decide) h hok he,
    fun s t h hok e he => fillInts_in_interval (n := 2) (by decide) h hok he,
    fun s t h hok e he => fillInts_in_interval (n := 4) (by decide) h hok he,
    fun s t h hok e he => fillInts_in_interval (n := 8) (by decide) h hok he,
    fun _ h => absurd h List.not_mem_nil⟩

end Sys2Proof.Proofs
end

section
/-!
SUPPORT. The error kinds each command can complete with (spec/60_exceptions.md R191): its checks that can fail, and the
overflow of the locale at the end of an advance or of a sampling fill.
-/

namespace Sys2Proof.Proofs

open Machine Claim

/-- Command `i` may complete with `e`: it is OK, or a kind that R191 lists `i` for. -/
abbrev MayEndWith (i : Instr) (e : ErrorKind) : Prop :=
  e = .ok ∨
  (e = .invalidKernel ∧ i ∈ transformCommands) ∨
  (e = .invalidRounds ∧ i ∈ transformCommands) ∨
  (e = .invalidRange ∧ i ∈ [.filli8, .filli16, .filli32, .filli64, .fillbig]) ∨
  (e = .invalidWidth ∧ i = .fillbig) ∨
  (e = .localeOverflow ∧ i ∈ [.block, .skip, .mock, .fillb, .filli8, .filli16, .filli32, .filli64, .fillbig]) ∨
  (e = .invalidBuffer ∧ i ∈ fills.map Prod.fst)

/-- The kinds that a FILLI of any width can raise are listed for it. -/
theorem mayEndWith_of_narrowFill : ∀ i ∈ narrowFills.map Prod.fst,
    ∀ e ∈ [ErrorKind.invalidKernel, .invalidRounds, .invalidRange, .invalidBuffer, .localeOverflow],
    MayEndWith i e := by decide

/-- An advance completes with OK or LocaleOverflow (41_locale R137). -/
theorem advanceTo_mayEndWith {i : Instr} {s t : State} {o : Option Machine.Locale}
    (hover : MayEndWith i .localeOverflow) (h : advanceTo o s = .next t) : MayEndWith i t.err := by
  rcases advanceTo_cases o s with ⟨-, h'⟩ | ⟨l, -, h'⟩ <;> rw [h'] at h <;> cases h
  · exact hover
  · exact .inl rfl

/-- The sampling of a fill completes with OK or LocaleOverflow (42_sampling R172). -/
theorem storeSamples_mayEndWith {i : Instr} {s t : State} {n : Nat} {mn : Int} {o : Option (List Nat × Nat)}
    (hover : MayEndWith i .localeOverflow) (h : storeSamples s n mn o = .next t) : MayEndWith i t.err := by
  rcases storeSamples_cases s n mn o with ⟨-, h'⟩ | ⟨ms, j, -, h'⟩ <;> rw [h'] at h <;> cases h
  · exact hover
  · exact .inl rfl

/-- FILLI of each width fails one of its checks, or ends as its sampling does (42_sampling R161). -/
theorem fillInts_mayEndWith {i : Instr} {s t : State} {w : Nat} (hi : i ∈ narrowFills.map Prod.fst)
    (h : fillInts w s = .next t) : MayEndWith i t.err := by
  have hlisted := mayEndWith_of_narrowFill i hi
  rcases fillInts_cases w s with ⟨e, he, h'⟩ | ⟨k, -, -, -, h'⟩ <;> rw [h'] at h
  · cases h
    exact hlisted e (by rcases he with rfl | rfl | rfl | rfl <;> decide)
  · exact storeSamples_mayEndWith (hlisted _ (by decide)) h

/-- Settles O21: each command fails one of its own checks, overflows the locale, or succeeds; QROUND only succeeds. -/
theorem commandsRaiseOnlyTheirErrors : Obligations.CommandsRaiseOnlyTheirErrors := by
  intro i s t h
  change MayEndWith i t.err
  cases i with
  | block =>
    rw [exec] at h
    rcases execBlock_cases s with ⟨e, he, h'⟩ | ⟨k, l, -, -, h'⟩ <;> rw [h'] at h <;> cases h
    · show MayEndWith _ e
      rcases he with rfl | rfl | rfl <;> decide
    · exact .inl rfl
  | blockraw =>
    rw [exec] at h
    rcases execBlockraw_cases s with ⟨e, he, h'⟩ | ⟨k, -, h'⟩ <;> rw [h'] at h <;> cases h
    · show MayEndWith _ e
      rcases he with rfl | rfl <;> decide
    · exact .inl rfl
  | skip => exact advanceTo_mayEndWith (by decide) h
  | mock => exact advanceTo_mayEndWith (by decide) h
  | fillb =>
    rw [exec] at h
    rcases execFillb_cases s with ⟨e, he, h'⟩ | ⟨k, -, -, -, h'⟩ <;> rw [h'] at h <;> cases h
    · show MayEndWith _ e
      rcases he with rfl | rfl | rfl | rfl <;> decide
    · exact .inl rfl
  | filli8 => exact fillInts_mayEndWith (by decide) (w := 8) h
  | filli16 => exact fillInts_mayEndWith (by decide) (w := 16) h
  | filli32 => exact fillInts_mayEndWith (by decide) (w := 32) h
  | filli64 => exact fillInts_mayEndWith (by decide) (w := 64) h
  | fillbig =>
    rw [exec] at h
    rcases execFillbig_cases s with ⟨e, he, h'⟩ | ⟨k, -, -, -, -, -, h'⟩ <;> rw [h'] at h
    · cases h
      show MayEndWith _ e
      rcases he with rfl | rfl | rfl | rfl | rfl <;> decide
    · exact storeSamples_mayEndWith (by decide) h
  | qround a b c d =>
    cases h
    exact .inl rfl

end Sys2Proof.Proofs
end

section
/-!
SUPPORT. The reset input (spec/70_reset_and_hazards.md R220, R222): what a byte of the output memory reads as after it.
-/

namespace Sys2Proof.Proofs

open Machine Claim

/-- The bytes that a reset frees are those of the running fill's destination that lie in the output memory
(70_reset_and_hazards R222). -/
theorem mem_presentRun_iff (s : State) (a : Nat) :
    s.dst.toNat ≤ a ∧ a < s.dst.toNat + s.presentSize ↔ s.inDest a = true ∧ a < s.outSize := by
  have hpresent : s.presentSize = min (s.dst.toNat + s.runningSize) s.outSize - s.dst.toNat := rfl
  rw [State.inDest, decide_eq_true_iff]
  omega

/-- A reset keeps every byte outside the running fill's destination (70_reset_and_hazards R220). -/
theorem byte_resetCore_of_outside {s : State} {a : Nat} (h : s.inDest a = false) : (resetCore s).byte a = s.byte a := by
  have hout : ¬(s.dst.toNat ≤ a ∧ a < s.dst.toNat + s.presentSize) := by
    rw [mem_presentRun_iff, h]
    exact fun hin => Bool.false_ne_true hin.1
  exact byte_congr (Memory.find?_setFree_outside _ _ (by omega))

/-- A reset makes every byte of the running fill's destination that exists any value (70_reset_and_hazards R222). -/
theorem byte_resetCore_of_inside {s : State} {a : Nat} (h : s.inDest a = true) (ha : a < s.outSize) :
    ∃ n, (resetCore s).byte a = Config.freeByte n := by
  obtain ⟨hle, hlt⟩ := (mem_presentRun_iff s a).mpr ⟨h, ha⟩
  obtain ⟨i, rfl⟩ := Nat.exists_eq_add_of_le hle
  exact ⟨s.fresh + i, byte_of_find? (Memory.find?_setFree_inside _ _ _ _ _ (by omega))⟩

/-- Settles O58: the step is the reset of the state with the move taken, which has the same destination and bytes. -/
theorem resetRestoresEveryRegister : Obligations.ResetRestoresEveryRegister := by
  intro s ms hm
  refine ⟨resetCore { s with moves := ms }, step_of_cons hm, rfl, fun a hout => ?_, fun a hin ha => ?_⟩
  · exact byte_resetCore_of_outside (s := { s with moves := ms }) hout
  · exact byte_resetCore_of_inside (s := { s with moves := ms }) hin ha

end Sys2Proof.Proofs
end
